-- ==== Sys2Proof/Word.lean ====
section
/-! DEFINITION. The word types of the block. -/

namespace Sys2Proof

/-- A byte (R12). -/
abbrev Byte := BitVec 8

/-- A lane: "one 64-bit element of the permutation state" (R13, R21). -/
abbrev Lane := BitVec 64

/-- A command word: "a 32-bit value the host pushes; one command" (R13, R70). -/
abbrev CmdWord := BitVec 32

/-- The lane file: 25 lanes, lane `(x, y)` is number `x + 5*y` (R21). -/
abbrev Lanes := Vector Lane 25

end Sys2Proof
end

