-- ==== Sys2Proof/Syntax.lean ====
section
/-! DEFINITION. The commands: one constructor per row of spec/opcode_table.json (R73). -/

namespace Sys2Proof

/-- The 24 rows of the opcode table: 20 commands, the four `.X` forms as rows of their own (R73).
An operand is the immediate's used bits (R71). -/
inductive Instr where
  /-- `NOP` (R210) -/
  | nop
  /-- `CLRERR` (R211) -/
  | clrerr
  /-- `ICLR` (R212) -/
  | iclr
  /-- `IPUT b` (R213) -/
  | iput (b : BitVec 8)
  /-- `XFER k` (R214) -/
  | xfer (k : BitVec 16)
  /-- `PCLR` (R109) -/
  | pclr
  /-- `PRND r` (R110); legal operands are 0 to 23, see `wellFormed` -/
  | prnd (r : BitVec 5)
  /-- `PERM` (R111) -/
  | perm
  /-- `ABS` (R126) -/
  | abs
  /-- `SQZ n` (R127) -/
  | sqz (n : BitVec 16)
  /-- `HASH` (R128) -/
  | hash
  /-- `HASH.X` (R129) -/
  | hashX
  /-- `SEL` (R150) -/
  | sel
  /-- `SEL.X` (R150) -/
  | selX
  /-- `DCLR` (R151) -/
  | dclr
  /-- `TIN t` (R152) -/
  | tin (t : BitVec 8)
  /-- `TOUT t` (R153) -/
  | tout (t : BitVec 8)
  /-- `ACLR` (R154) -/
  | aclr
  /-- `APUSH` (R155) -/
  | apush
  /-- `ENC` (R170) -/
  | enc
  /-- `ENC.X` (R170) -/
  | encX
  /-- `DEC` (R190) -/
  | dec
  /-- `DEC.X` (R190, R204) -/
  | decX
  /-- `RGET j` (R200) -/
  | rget (j : BitVec 16)
  deriving DecidableEq, Repr

end Sys2Proof
end

