-- ==== Sys2Proof/WellFormed.lean ====
section
/-! DEFINITION. Which command terms have a word: the operand ranges of R71. -/

namespace Sys2Proof

/-- R71: every operand's range is its field's, except `PRND r` with `r ≤ 23`
("`IMM[4:0]` in 24..31 is illegal"). -/
def wellFormed : Instr → Bool
  | .prnd r => r.toNat ≤ 23
  | .nop => true
  | .clrerr => true
  | .iclr => true
  | .iput _ => true
  | .xfer _ => true
  | .pclr => true
  | .perm => true
  | .abs => true
  | .sqz _ => true
  | .hash => true
  | .hashX => true
  | .sel => true
  | .selX => true
  | .dclr => true
  | .tin _ => true
  | .tout _ => true
  | .aclr => true
  | .apush => true
  | .enc => true
  | .encX => true
  | .dec => true
  | .decX => true
  | .rget _ => true

end Sys2Proof
end

