-- ==== Sys2Proof/Decode.lean ====
section
/-! DEFINITION. The command word: its fields, the decoder of R80, the encoder, the match/mask table of R73. -/

namespace Sys2Proof

/-- `OPC`, bits 31:24 (R70). -/
def opcField (w : CmdWord) : BitVec 8 := w.extractLsb' 24 8

/-- `X`, bit 23 (R70). -/
def xField (w : CmdWord) : BitVec 1 := w.extractLsb' 23 1

/-- `ZERO`, bits 22:16 (R70). -/
def zeroField (w : CmdWord) : BitVec 7 := w.extractLsb' 16 7

/-- `IMM`, bits 15:0 (R70). -/
def immField (w : CmdWord) : BitVec 16 := w.extractLsb' 0 16

/-- A word from its four fields, laid out as R70 draws them. -/
def packWord (opc : BitVec 8) (x : BitVec 1) (zero : BitVec 7) (imm : BitVec 16) : CmdWord :=
  opc ++ x ++ zero ++ imm

/-- A command without operand and without an `.X` form: `X` and all of `IMM` must be 0 (R71, R72). -/
def plainForm (x : BitVec 1) (imm : BitVec 16) (i : Instr) : Option Instr :=
  if x = 0 ∧ imm = 0 then some i else none

/-- A command without operand that has an `.X` form: all of `IMM` must be 0 (R71, R72). -/
def textForm (x : BitVec 1) (imm : BitVec 16) (i iX : Instr) : Option Instr :=
  if imm = 0 then (if x = 1 then some iX else some i) else none

/-- An operand in `IMM[7:0]`: `X` and `IMM[15:8]` must be 0 (R71). -/
def byteForm (x : BitVec 1) (imm : BitVec 16) (mk : BitVec 8 → Instr) : Option Instr :=
  if x = 0 ∧ imm.extractLsb' 8 8 = 0 then some (mk (imm.extractLsb' 0 8)) else none

/-- An operand in `IMM[15:0]`: `X` must be 0 (R71). -/
def halfForm (x : BitVec 1) (imm : BitVec 16) (mk : BitVec 16 → Instr) : Option Instr :=
  if x = 0 then some (mk imm) else none

/-- `PRND r`: `X` and `IMM[15:5]` must be 0 and `IMM[4:0]` must be at most 23 (R71, R80). -/
def roundForm (x : BitVec 1) (imm : BitVec 16) : Option Instr :=
  if x = 0 ∧ imm.extractLsb' 5 11 = 0 ∧ (imm.extractLsb' 0 5).toNat ≤ 23 then
    some (.prnd (imm.extractLsb' 0 5))
  else none

/-- The opcode lookup of R80 in the map of R73, on the fields `OPC`, `X` and `IMM`. -/
def decodeOpc (opc : BitVec 8) (x : BitVec 1) (imm : BitVec 16) : Option Instr :=
  match opc.toNat with
  | 0x00 => plainForm x imm .nop
  | 0x01 => plainForm x imm .clrerr
  | 0x02 => plainForm x imm .iclr
  | 0x03 => byteForm x imm .iput
  | 0x04 => halfForm x imm .xfer
  | 0x10 => plainForm x imm .pclr
  | 0x11 => roundForm x imm
  | 0x12 => plainForm x imm .perm
  | 0x20 => plainForm x imm .abs
  | 0x21 => halfForm x imm .sqz
  | 0x22 => textForm x imm .hash .hashX
  | 0x30 => textForm x imm .sel .selX
  | 0x31 => plainForm x imm .dclr
  | 0x32 => byteForm x imm .tin
  | 0x33 => byteForm x imm .tout
  | 0x34 => plainForm x imm .aclr
  | 0x35 => plainForm x imm .apush
  | 0x40 => textForm x imm .enc .encX
  | 0x50 => textForm x imm .dec .decX
  | 0x51 => halfForm x imm .rget
  | _ => none

/-- R80, "total on all 2^32 words"; `none` is the verdict "illegal". -/
def decode (w : CmdWord) : Option Instr :=
  if zeroField w = 0 then decodeOpc (opcField w) (xField w) (immField w) else none

/-- The word of a command: "`(OPC << 24) or (X << 23) or IMM`" (R78), from the map of R73. -/
def encode : Instr → CmdWord
  | .nop => packWord 0x00 0 0 0
  | .clrerr => packWord 0x01 0 0 0
  | .iclr => packWord 0x02 0 0 0
  | .iput b => packWord 0x03 0 0 (b.setWidth 16)
  | .xfer k => packWord 0x04 0 0 k
  | .pclr => packWord 0x10 0 0 0
  | .prnd r => packWord 0x11 0 0 (r.setWidth 16)
  | .perm => packWord 0x12 0 0 0
  | .abs => packWord 0x20 0 0 0
  | .sqz n => packWord 0x21 0 0 n
  | .hash => packWord 0x22 0 0 0
  | .hashX => packWord 0x22 1 0 0
  | .sel => packWord 0x30 0 0 0
  | .selX => packWord 0x30 1 0 0
  | .dclr => packWord 0x31 0 0 0
  | .tin t => packWord 0x32 0 0 (t.setWidth 16)
  | .tout t => packWord 0x33 0 0 (t.setWidth 16)
  | .aclr => packWord 0x34 0 0 0
  | .apush => packWord 0x35 0 0 0
  | .enc => packWord 0x40 0 0 0
  | .encX => packWord 0x40 1 0 0
  | .dec => packWord 0x50 0 0 0
  | .decX => packWord 0x50 1 0 0
  | .rget j => packWord 0x51 0 0 j

/-- A `match`/`mask` pair: "a word `w` is this command when `(w and mask) = match`" (R73). -/
structure MaskRow where
  pattern : CmdWord
  mask : CmdWord
  deriving DecidableEq, Repr

/-- The word satisfies the row. -/
def MaskRow.accepts (r : MaskRow) (w : CmdWord) : Bool := w &&& r.mask = r.pattern

/-- The row of spec/opcode_table.json for each command, its `match` and `mask` as printed there. -/
def maskRow : Instr → MaskRow
  | .nop => ⟨0x00000000, 0xFFFFFFFF⟩
  | .clrerr => ⟨0x01000000, 0xFFFFFFFF⟩
  | .iclr => ⟨0x02000000, 0xFFFFFFFF⟩
  | .iput _ => ⟨0x03000000, 0xFFFFFF00⟩
  | .xfer _ => ⟨0x04000000, 0xFFFF0000⟩
  | .pclr => ⟨0x10000000, 0xFFFFFFFF⟩
  | .prnd _ => ⟨0x11000000, 0xFFFFFFE0⟩
  | .perm => ⟨0x12000000, 0xFFFFFFFF⟩
  | .abs => ⟨0x20000000, 0xFFFFFFFF⟩
  | .sqz _ => ⟨0x21000000, 0xFFFF0000⟩
  | .hash => ⟨0x22000000, 0xFFFFFFFF⟩
  | .hashX => ⟨0x22800000, 0xFFFFFFFF⟩
  | .sel => ⟨0x30000000, 0xFFFFFFFF⟩
  | .selX => ⟨0x30800000, 0xFFFFFFFF⟩
  | .dclr => ⟨0x31000000, 0xFFFFFFFF⟩
  | .tin _ => ⟨0x32000000, 0xFFFFFF00⟩
  | .tout _ => ⟨0x33000000, 0xFFFFFF00⟩
  | .aclr => ⟨0x34000000, 0xFFFFFFFF⟩
  | .apush => ⟨0x35000000, 0xFFFFFFFF⟩
  | .enc => ⟨0x40000000, 0xFFFFFFFF⟩
  | .encX => ⟨0x40800000, 0xFFFFFFFF⟩
  | .dec => ⟨0x50000000, 0xFFFFFFFF⟩
  | .decX => ⟨0x50800000, 0xFFFFFFFF⟩
  | .rget _ => ⟨0x51000000, 0xFFFF0000⟩

/-- The rows of the table, one term per row with its operand at 0. -/
def tableRows : List Instr :=
  [.nop, .clrerr, .iclr, .iput 0, .xfer 0, .pclr, .prnd 0, .perm] ++
  [.abs, .sqz 0, .hash, .hashX, .sel, .selX, .dclr, .tin 0] ++
  [.tout 0, .aclr, .apush, .enc, .encX, .dec, .decX, .rget 0]

/-- A word that the host's table numbering gives: `nbits` bits of `w`, the bits above them 0.
A command word has no byte order (R55) and is one 32-bit word (R70). -/
def tableWord (nbits w : Nat) : CmdWord := BitVec.ofNat 32 (w % 2 ^ nbits)

/-- The command the decoder reads from a word numbered as spec/opcode_table.json numbers it. -/
def decodeTableWord (nbits w : Nat) : Option Instr :=
  if nbits ≤ 32 then decode (tableWord nbits w) else none

end Sys2Proof
end

