-- ==== Sys2Proof/Config.lean ====
section
/-! DEFINITION. The fixed parameters (R8) and the open parameters (R9) of the block. -/

namespace Sys2Proof.Config

/-- `RATE`: bytes absorbed or squeezed per permutation call (R8). -/
abbrev rate : Nat := 136

/-- `NR`: rounds per permutation (R8). -/
abbrev rounds : Nat := 24

/-- `DIGEST`: digest length in bytes (R8). -/
abbrev digest : Nat := 32

/-- `PADFIRST`: first padding byte (R8). -/
abbrev padFirst : Byte := 0x01

/-- `PADLAST`: value XORed into the last padded byte (R8). -/
abbrev padLast : Byte := 0x80

/-- `WORD`: codec word in bytes (R8). -/
abbrev wordLen : Nat := 32

/-- `SELLEN`: selector length in bytes (R8). -/
abbrev selLen : Nat := 4

/-- `ADDRLEN`: address length in bytes (R8). -/
abbrev addrLen : Nat := 20

/-- The first natural that `word(v)` cannot render: 2^256 (R141). -/
abbrev wordLimit : Nat := 2 ^ 256

end Sys2Proof.Config

namespace Sys2Proof

/-- The open parameters of R9, which "the model takes ... as an argument; no rule fixes a value".
`bufCap = none` is `BUF_CAP = ∞`. -/
structure Params where
  bufCap : Option Nat
  listCap : Nat
  deriving DecidableEq, Repr

/-- A byte string of `n` bytes fits a buffer: `n ≤ BUF_CAP` (R9, R224). -/
def Params.bufFits (p : Params) (n : Nat) : Bool :=
  match p.bufCap with
  | none => true
  | some c => n ≤ c

/-- The ranges R9 gives the open parameters: `BUF_CAP` is at least 66 or infinite, `LIST_CAP` is 1 to 65536. -/
def Params.legal (p : Params) : Bool :=
  p.bufFits 66 && 1 ≤ p.listCap && p.listCap ≤ 65536

/-- `BUF_CAP = ∞`, `LIST_CAP = 65536`: the values the spec's vectors take where they name none
(95_test_vectors.md section 0), under which "the model is exactly D0" (R9).
DESIGN CHOICE, log 1: R9 leaves both open. -/
def Params.unbounded : Params := { bufCap := none, listCap := 65536 }

end Sys2Proof
end

