-- ==== Sys2Proof/Machine/State.lean ====
section
/-! DEFINITION. The state of the block (R20 to R32), its reset (R36), the reasons a step can stop. -/

namespace Sys2Proof.Machine

/-- A move of the host that acts on the block (R245). Reading a register changes nothing (R59) and is
`State.hostView`. -/
inductive HostMove where
  /-- assert reset (R260) -/
  | assertReset
  /-- push a command word (R76) -/
  | push (w : CmdWord)
  deriving DecidableEq, Repr

/-- The architectural state: "exactly the items of rules R21 to R32" (R20), and the model's own two fields
`params` (the open parameters of R9, log 1) and `moves` (what the host has yet to do, log 2).
A length register is the length of its list (R24, R25, R27 to R29). -/
structure State where
  /-- `A[0..25)` (R21) -/
  lanes : Vector Lane 25
  /-- `SPOS`, 0 to 136 (R23) -/
  spos : Nat
  /-- `IBUF[0..ILEN)` (R24) -/
  ibuf : List Byte
  /-- `OBUF[0..OLEN)` (R25) -/
  obuf : List Byte
  /-- `SELR` (R26) -/
  selr : Vector Byte 4
  /-- `SELV` (R26, R32) -/
  selv : Bool
  /-- `ITYP[0..NIN)` (R27) -/
  ityp : List Byte
  /-- `OTYP[0..NOUT)` (R27) -/
  otyp : List Byte
  /-- `ARGV[0..NARG)` (R28) -/
  argv : List (List Byte)
  /-- `RESV[0..NRES)` (R29) -/
  resv : List (List Byte)
  /-- `ERR` (R32) -/
  err : Bool
  /-- `ECODE` (R30) -/
  ecode : BitVec 4
  /-- `EPOS` (R30) -/
  epos : BitVec 16
  /-- `ECMD` (R30) -/
  ecmd : CmdWord
  /-- `ECP` (R30) -/
  ecp : BitVec 32
  /-- `CP` (R31) -/
  cp : BitVec 32
  /-- `BUF_CAP` and `LIST_CAP` (R9): the model's own field, never written (log 1) -/
  params : Params
  /-- the host's moves to come, oldest first: the model's own field (log 2) -/
  moves : List HostMove
  deriving DecidableEq, Repr

/-- The state after reset of a block with the given open parameters: the table of R36, no host move to come. -/
def State.resetWith (p : Params) : State where
  lanes := Vector.replicate 25 0
  spos := 0
  ibuf := []
  obuf := []
  selr := Vector.replicate 4 0
  selv := false
  ityp := []
  otyp := []
  argv := []
  resv := []
  err := false
  ecode := 0
  epos := 0
  ecmd := 0
  ecp := 0
  cp := 0
  params := p
  moves := []

/-- The machine right after reset (R36), with unbounded buffers (log 1). -/
def State.reset : State := State.resetWith Params.unbounded

/-- The faults of R220. A fault of the block is an event that sets `ERR`, not a stop of the machine. -/
inductive FaultKind where
  | arityError
  | invalidAddressError
  | invalidLengthError
  | overflowError
  | unsupportedTypeError
  | truncatedDataError
  | illegalCommand
  | capacityFault
  | rangeFault
  | sequenceFault
  | operandFault
  deriving DecidableEq, Repr

/-- What `raise E(pos)` carries (R12): the fault and its position. -/
structure Raise where
  kind : FaultKind
  pos : Nat
  deriving DecidableEq, Repr

/-- The ways a step can stop the machine with a fault: none. R76: "every state and every word has exactly one
next state. There is no stuck state and no refused word"; the block's faults are states (log 11). -/
inductive Fault where
  deriving DecidableEq, Repr

/-- The ways a step can have no meaning. -/
inductive Refusal where
  /-- A command without a meaning yet, raised by `exec` only; no arm raises it. Safe: the machine stops. -/
  | notModelled (mnemonic : String)
  deriving DecidableEq, Repr

end Sys2Proof.Machine
end

