-- ==== Sys2Proof/Machine/Operands.lean ====
section
/-! DEFINITION. Byte strings, words, hex text, value types and operand formats: R12, R140 to R148, R191. -/

namespace Sys2Proof.Machine

/-! ### Byte strings (R12) -/

/-- `b[off..off+n)`; callers check `off + n ≤ len(b)` first. -/
def slice (b : List Byte) (off n : Nat) : List Byte := (b.drop off).take n

/-- `zeros(n)` (R12). -/
def zeros (n : Nat) : List Byte := List.replicate n 0

/-- `ceil32(n) = 32 * ((n + 31) div 32)` (R12). -/
def ceil32 (n : Nat) : Nat := 32 * ((n + 31) / 32)

/-- The natural `b[0] + 2^8 b[1] + ...` of a little-endian byte string (R12). -/
def leNat : List Byte → Nat
  | [] => 0
  | x :: xs => x.toNat + 256 * leNat xs

/-- `le64(b)` for 8 bytes (R12). -/
def le64 (b : List Byte) : Lane := BitVec.ofNat 64 (leNat b)

/-- `lebytes64(v)`: 8 bytes, least significant first (R12). -/
def lebytes64 (v : Lane) : List Byte := (List.range 8).map fun i => (v >>> (8 * i)).setWidth 8

/-- `be(b)`: the natural of a big-endian byte string; `be("") = 0` (R12). -/
def be (b : List Byte) : Nat := b.foldl (fun acc x => acc * 256 + x.toNat) 0

/-- The 32 bytes of a natural below 2^256, big-endian, left-zero-padded (R12, R53). -/
def wordBytes (v : Nat) : List Byte := (List.range 32).map fun i => BitVec.ofNat 8 (v / 256 ^ (31 - i))

/-- `word(v)`, which raises `OverflowError` for `v ≥ 2^256` (R141); `pos` is the position it raises at. -/
def word (v pos : Nat) : Except Raise (List Byte) :=
  if v < Config.wordLimit then .ok (wordBytes v) else .error ⟨.overflowError, pos⟩

/-! ### Hex text (R142 to R144) -/

/-- `hexval(c)`: the value of a hex digit of either case, or none (R142). -/
def hexVal (c : Byte) : Option Nat :=
  let n := c.toNat
  if 0x30 ≤ n ∧ n ≤ 0x39 then some (n - 0x30)
  else if 0x61 ≤ n ∧ n ≤ 0x66 then some (n - 0x61 + 10)
  else if 0x41 ≤ n ∧ n ≤ 0x46 then some (n - 0x41 + 10)
  else none

/-- The lowercase hex digit of a value below 16 (R143). -/
def hexDigit (n : Nat) : Byte := if n < 10 then BitVec.ofNat 8 (0x30 + n) else BitVec.ofNat 8 (0x57 + n)

/-- Two hex digits for each byte, high nibble first (R143). -/
def hexDigits : List Byte → List Byte
  | [] => []
  | x :: xs => hexDigit (x.toNat / 16) :: hexDigit (x.toNat % 16) :: hexDigits xs

/-- `hex0x(b)`: `"0x"` and the hex digits, lowercase (R143). -/
def hex0x (b : List Byte) : List Byte := 0x30 :: 0x78 :: hexDigits b

/-- `strip0x(t)`: removes one leading `"0x"`, lowercase `x` only (R144). -/
def strip0x : List Byte → List Byte
  | c0 :: c1 :: rest => if c0 = 0x30 ∧ c1 = 0x78 then rest else c0 :: c1 :: rest
  | short => short

/-- The bytes of a string of hex digits; none when the count is odd or a byte is no hex digit (R144). -/
def unhexDigits : List Byte → Option (List Byte)
  | [] => some []
  | [_] => none
  | c0 :: c1 :: rest =>
    match hexVal c0, hexVal c1, unhexDigits rest with
    | some h, some l, some bs => some (BitVec.ofNat 8 (16 * h + l) :: bs)
    | _, _, _ => none

/-- `unhex(t)`, none for "malformed" (R144). -/
def unhex (t : List Byte) : Option (List Byte) := unhexDigits (strip0x t)

/-- The bytes of hex text that is exactly `n` hex digits after the optional prefix, none otherwise (R175, R176). -/
def unhexExact (n : Nat) (t : List Byte) : Option (List Byte) :=
  if (strip0x t).length = n then unhexDigits (strip0x t) else none

/-! ### Lists of texts separated by commas (R146, R147) -/

/-- Cuts at every `0x2C`: `k` separators give `k + 1` pieces (R146). -/
def splitComma : List Byte → List (List Byte)
  | [] => [[]]
  | c :: cs =>
    if c = 0x2C then [] :: splitComma cs
    else
      match splitComma cs with
      | [] => [[c]]
      | p :: ps => (c :: p) :: ps

/-- `pieces(a)`: no element for the empty operand, else the pieces between separators (R146, R170). -/
def pieces (a : List Byte) : List (List Byte) := if a.isEmpty then [] else splitComma a

/-- `join(",", xs)` (R147, R190). -/
def joinComma : List (List Byte) → List Byte
  | [] => []
  | [x] => x
  | x :: y :: rest => x ++ 0x2C :: joinComma (y :: rest)

/-! ### Value types (R140) -/

/-- The closed catalogue of R140 and, as R140 advises, one constructor for the tags outside it. -/
inductive ValueType where
  | uint256
  | bytes32
  | address
  | bool
  | string
  | addressArray
  | unsupported (tag : Byte)
  deriving DecidableEq, Repr

/-- The type of an 8-bit tag (R140). -/
def typeOfTag (t : Byte) : ValueType :=
  match t.toNat with
  | 0 => .uint256
  | 1 => .bytes32
  | 2 => .address
  | 3 => .bool
  | 4 => .string
  | 5 => .addressArray
  | _ => .unsupported t

/-- Static types occupy exactly one head word (R140). -/
def ValueType.isStatic : ValueType → Bool
  | .uint256 => true
  | .bytes32 => true
  | .address => true
  | .bool => true
  | .string => false
  | .addressArray => false
  | .unsupported _ => false

/-- The column "accepted when" of R146, for every type; a tag outside the catalogue accepts nothing (R179). -/
def acceptable (t : ValueType) (a : List Byte) : Bool :=
  match t with
  | .uint256 => be a < Config.wordLimit
  | .bool => a = [0x00] ∨ a = [0x01]
  | .address => (unhexExact 40 a).isSome
  | .bytes32 => (unhexExact 64 a).isSome
  | .string => true
  | .addressArray => (pieces a).all fun e => (unhexExact 40 e).isSome
  | .unsupported _ => false

/-- `hex0x(unhex(v))` of acceptable hex text (R148). -/
def canonHex (v : List Byte) : List Byte :=
  match unhex v with
  | some b => hex0x b
  | none => []

/-- `canon(type, v)` of an acceptable operand (R148). -/
def canon (t : ValueType) (v : List Byte) : List Byte :=
  match t with
  | .uint256 => wordBytes (be v)
  | .bool => v
  | .address => canonHex v
  | .bytes32 => canonHex v
  | .string => v
  | .addressArray => joinComma ((pieces v).map canonHex)
  | .unsupported _ => v

end Sys2Proof.Machine
end

