-- ==== Sys2Proof/Machine/Flags.lean ====
section
/-! DEFINITION. The two flags `ERR` and `SELV` (R32), the fault codes and their `EPOS` (R220). -/

namespace Sys2Proof.Machine

/-- `code(E)`, the value written to `ECODE` (R220). -/
def faultCode : FaultKind → BitVec 4
  | .arityError => 1
  | .invalidAddressError => 2
  | .invalidLengthError => 3
  | .overflowError => 4
  | .unsupportedTypeError => 5
  | .truncatedDataError => 6
  | .illegalCommand => 8
  | .capacityFault => 9
  | .rangeFault => 10
  | .sequenceFault => 11
  | .operandFault => 12

/-- The faults whose `EPOS` is always 0 (R220, column `EPOS`; `OperandFault` has 0 for `DEC.X` only). -/
def positionless : FaultKind → Bool
  | .arityError => true
  | .invalidAddressError => false
  | .invalidLengthError => false
  | .overflowError => false
  | .unsupportedTypeError => false
  | .truncatedDataError => false
  | .illegalCommand => true
  | .capacityFault => true
  | .rangeFault => true
  | .sequenceFault => true
  | .operandFault => false

/-- `raise E` with the default position 0 (R12). -/
def raise0 (e : FaultKind) : Raise := ⟨e, 0⟩

/-- The 16 bits of `EPOS` for a position (R30). A position is below `LIST_CAP ≤ 65536`, so it fits (log 5). -/
def eposOf (pos : Nat) : BitVec 16 := BitVec.ofNat 16 pos

/-- `SELV <- 1` with the selector register's new value (R26, R150): the first 4 bytes of the digest. -/
def State.setSelector (s : State) (digest : List Byte) : State :=
  { s with selr := Vector.ofFn fun i : Fin 4 => digest.getD i.val 0, selv := true }

/-- `SELR <- 00 00 00 00; SELV <- 0` (R26, R151). -/
def State.clearSelector (s : State) : State := { s with selr := Vector.replicate 4 0, selv := false }

end Sys2Proof.Machine
end

