-- ==== Sys2Proof/Machine/Keccak.lean ====
section
/-! DEFINITION. The permutation and the sponge as functions: R22, R100 to R112, R120 to R125. -/

namespace Sys2Proof.Machine

/-! ### Constant tables and lanes -/

/-- The table of R100 as it is printed, two constants a row: row `r` holds `RC[r]` and `RC[r+12]` (the spec marks the
values as general knowledge confirmed by D0's selector check, log 4). -/
def roundConstantRow : Fin 12 → Lane × Lane
  | 0 => (0x0000000000000001, 0x000000008000808B)
  | 1 => (0x0000000000008082, 0x800000000000008B)
  | 2 => (0x800000000000808A, 0x8000000000008089)
  | 3 => (0x8000000080008000, 0x8000000000008003)
  | 4 => (0x000000000000808B, 0x8000000000008002)
  | 5 => (0x0000000080000001, 0x8000000000000080)
  | 6 => (0x8000000080008081, 0x000000000000800A)
  | 7 => (0x8000000000008009, 0x800000008000000A)
  | 8 => (0x000000000000008A, 0x8000000080008081)
  | 9 => (0x0000000000000088, 0x8000000000008080)
  | 10 => (0x0000000080008009, 0x0000000080000001)
  | 11 => (0x000000008000000A, 0x8000000080008008)

/-- `RC[0..24)` (R100): the left column, then the right one. -/
def roundConstants : Vector Lane 24 :=
  Vector.ofFn fun r =>
    let row := roundConstantRow ⟨r.val % 12, Nat.mod_lt _ (by decide)⟩
    if r.val < 12 then row.1 else row.2

/-- `ROT[x][y]` at lane number `x + 5*y` (R101; marked as `RC` is, log 4). -/
def rotations : Vector Nat 25 :=
  #v[0, 1, 62, 28, 27,
     36, 44, 6, 55, 20,
     3, 10, 43, 25, 39,
     41, 45, 15, 21, 8,
     18, 2, 61, 56, 14]

/-- `rol64(v, n)`, amounts taken mod 64 (R12, R108). -/
def rol64 (v : Lane) (n : Nat) : Lane :=
  if n % 64 = 0 then v else (v <<< (n % 64)) ||| (v >>> (64 - n % 64))

/-- Lane `(x, y)`, coordinates mod 5: `A[x + 5*y]` (R12, R21). -/
def laneAt (a : Lanes) (x y : Nat) : Lane := a[x % 5 + 5 * (y % 5)]'(by omega)

/-- `ROT[x][y]`, coordinates mod 5 (R101). -/
def rotAt (x y : Nat) : Nat := rotations[x % 5 + 5 * (y % 5)]'(by omega)

/-- The all-zero state `Z` (R122). -/
def zeroLanes : Lanes := Vector.replicate 25 0

/-- `S[i]`: lane `i div 8`, byte `i mod 8`, least significant first (R22); no state byte 200 or above exists (log 10). -/
def stateByte (a : Lanes) (i : Nat) : Byte :=
  if h : i < 200 then ((a[i / 8]'(by omega)) >>> (8 * (i % 8))).setWidth 8 else 0

/-! ### The step mappings; each reads the whole old state (R112) -/

/-- `C[x]`: the parity of column `x` (R102). -/
def columnParity (a : Lanes) (x : Nat) : Lane :=
  laneAt a x 0 ^^^ laneAt a x 1 ^^^ laneAt a x 2 ^^^ laneAt a x 3 ^^^ laneAt a x 4

/-- Theta (R102). -/
def theta (a : Lanes) : Lanes :=
  let cs : Vector Lane 5 := Vector.ofFn fun x => columnParity a x
  let ds : Vector Lane 5 := Vector.ofFn fun x =>
    cs[(x.val + 4) % 5]'(by omega) ^^^ rol64 (cs[(x.val + 1) % 5]'(by omega)) 1
  Vector.ofFn fun i => a[i] ^^^ ds[i.val % 5]'(by omega)

/-- Rho and pi fused (R103), written by destination: the lane that lands at `(X, Y)` comes from
`(X + 3Y, X)`, the inverse of `(x, y) → (y, 2x + 3y)`. -/
def rhopi (a : Lanes) : Lanes :=
  Vector.ofFn fun i =>
    let y := i.val % 5
    let x := i.val % 5 + 3 * (i.val / 5)
    rol64 (laneAt a x y) (rotAt x y)

/-- Chi (R104). -/
def chi (b : Lanes) : Lanes :=
  Vector.ofFn fun i =>
    let x := i.val % 5
    let y := i.val / 5
    laneAt b x y ^^^ (~~~ (laneAt b (x + 1) y) &&& laneAt b (x + 2) y)

/-- Iota (R105). -/
def iota (e : Lanes) (r : Fin 24) : Lanes := e.set 0 (e[0] ^^^ roundConstants[r])

/-- `Round(A, r)` (R106). -/
def keccakRound (a : Lanes) (r : Fin 24) : Lanes := iota (chi (rhopi (theta a))) r

/-- The permutation `f`: rounds 0 to 23 in that order (R107). Irreducible, so that no proof evaluates 24 rounds on
symbols. -/
@[irreducible] def keccakF (a : Lanes) : Lanes := (List.finRange Config.rounds).foldl keccakRound a

/-! ### The sponge -/

/-- `p` with its last byte XORed with `v`. -/
def xorLast (v : Byte) : List Byte → List Byte
  | [] => []
  | [x] => [x ^^^ v]
  | x :: y :: rest => x :: xorLast v (y :: rest)

/-- `pad(m)` (R120). -/
def pad (m : List Byte) : List Byte :=
  let n := m.length
  let len := Config.rate * (n / Config.rate + 1)
  xorLast Config.padLast (m ++ Config.padFirst :: zeros (len - n - 1))

/-- `absorb_block(A, blk)` for a block of 136 bytes (R121). -/
def absorbBlock (a : Lanes) (blk : List Byte) : Lanes :=
  keccakF (Vector.ofFn fun i => if i.val < 17 then a[i] ^^^ le64 (slice blk (8 * i.val) 8) else a[i])

/-- `absorb(A, p)`: the 136-byte blocks of `p` in order (R121). -/
def absorb (a : Lanes) (p : List Byte) : Lanes :=
  (List.range (p.length / Config.rate)).foldl (fun acc k => absorbBlock acc (slice p (Config.rate * k) Config.rate)) a

/-- What `squeeze` returns (R123). -/
structure Squeezed where
  lanes : Lanes
  spos : Nat
  out : List Byte
  deriving DecidableEq, Repr

/-- `squeeze(A, spos, n)`: the permutation runs only when a further byte is needed (R123). -/
def squeeze (a : Lanes) (spos : Nat) : Nat → Squeezed
  | 0 => ⟨a, spos, []⟩
  | n + 1 =>
    if spos = Config.rate then
      let a' := keccakF a
      let r := squeeze a' 1 n
      ⟨r.lanes, r.spos, stateByte a' 0 :: r.out⟩
    else
      let r := squeeze a (spos + 1) n
      ⟨r.lanes, r.spos, stateByte a spos :: r.out⟩

/-- The lanes after hashing `m` from the all-zero state (R122, R124). -/
def hashLanes (m : List Byte) : Lanes := absorb zeroLanes (pad m)

/-- The squeeze of the digest of `m` (R124, R128). Irreducible for the reason `keccakF` is. -/
@[irreducible] def digestSqueeze (m : List Byte) : Squeezed := squeeze (hashLanes m) 0 Config.digest

/-- `keccak256(m)` (R124). -/
def keccak256 (m : List Byte) : List Byte := (digestSqueeze m).out

/-- `hashHex(m)` (R125). -/
def hashHex (m : List Byte) : List Byte := hex0x (keccak256 m)

/-- `selector(sig)`: the first 4 bytes of the digest (R149). -/
def selectorOf (sig : List Byte) : List Byte := (keccak256 sig).take Config.selLen

/-! ### Counts of permutation calls (R124, R127, R270); information only, no command reads them -/

/-- Permutation calls of `ABS`, `HASH` and `SEL` on a message of `n` bytes: `n div 136 + 1`. -/
def absorbPerms (n : Nat) : Nat := n / Config.rate + 1

/-- Permutation calls of `SQZ n`: `(SPOS + n - 1) div 136`, none for `n = 0`. -/
def squeezePerms (spos n : Nat) : Nat := if n = 0 then 0 else (spos + n - 1) / Config.rate

end Sys2Proof.Machine
end

