-- ==== Sys2Proof/Machine/Ops.lean ====
section
/-! DEFINITION. The shared operations: buffer primitives, taking a command, fault entry and return, reset, host view. -/

namespace Sys2Proof.Machine

/-- What a step answers. -/
abbrev Answer := Host.Outcome State Fault Refusal

/-! ### Buffer primitives (R12) -/

/-- `MemRead(buf, off, n)`, "defined only when `off + n ≤ len(buf)`" (R12). -/
def memRead (buf : List Byte) (off n : Nat) : Option (List Byte) :=
  if off + n ≤ buf.length then some (slice buf off n) else none

/-- `MemWrite(buf, off, n, v)` with `n = len(v)`, defined in the same range (R12). -/
def memWrite (buf : List Byte) (off : Nat) (v : List Byte) : Option (List Byte) :=
  if off + v.length ≤ buf.length then some (buf.take off ++ v ++ buf.drop (off + v.length)) else none

/-! ### Taking a command -/

/-- `CP <- (CP + 1) mod 2^32` (R31). -/
def State.advance (s : State) : State := { s with cp := s.cp + 1 }

/-- Fault entry (R227), and nothing else: the six assignments for fault `e` of the command word `w`. -/
def State.enterFault (s : State) (e : Raise) (w : CmdWord) : State :=
  { s with
    err := true
    ecode := faultCode e.kind
    epos := eposOf e.pos
    ecmd := w
    ecp := s.cp
    cp := s.cp + 1 }

/-- The return from the fault state (R211, R229): clears `ERR` and the error registers, restores nothing else. -/
def State.clearFault (s : State) : State :=
  { s with err := false, ecode := 0, epos := 0, ecmd := 0, ecp := 0 }

/-- A command word is taken (R76): skipped while latched (R228); else its effect, or the fault it raises with every
write discarded (R226). An effect leaves `CP` alone: `advance` and `enterFault` move it. -/
def takeCommand (w : CmdWord) (effect : State → Except Raise State) (s : State) : Answer :=
  if s.err then .next s.advance
  else
    match effect s with
    | .ok t => .next t.advance
    | .error e => .next (s.enterFault e w)

/-- An illegal word (R74, R222): `IllegalCommand`, or skipped while latched. -/
def illegalEffect (_ : State) : Except Raise State := .error (raise0 .illegalCommand)

/-- An illegal word is taken (R74, R76). -/
def takeIllegal (w : CmdWord) (s : State) : Answer := takeCommand w illegalEffect s

/-! ### Reset and the host's view -/

/-- The reset move (R260): every register at its reset value; the open parameters and the host's further moves are no
state of the block and stay (R20, log 8). -/
def State.assertReset (s : State) : State := { State.resetWith s.params with moves := s.moves }

/-- The registers the host can read between commands (R37). -/
structure HostView where
  obuf : List Byte
  olen : Nat
  err : Bool
  ecode : BitVec 4
  epos : BitVec 16
  ecmd : CmdWord
  ecp : BitVec 32
  cp : BitVec 32
  selr : List Byte
  selv : Bool
  nin : Nat
  nout : Nat
  narg : Nat
  nres : Nat
  ilen : Nat
  spos : Nat
  deriving DecidableEq, Repr

/-- What the host reads, without side effect (R37, R59). -/
def State.hostView (s : State) : HostView where
  obuf := s.obuf
  olen := s.obuf.length
  err := s.err
  ecode := s.ecode
  epos := s.epos
  ecmd := s.ecmd
  ecp := s.ecp
  cp := s.cp
  selr := s.selr.toList
  selv := s.selv
  nin := s.ityp.length
  nout := s.otyp.length
  narg := s.argv.length
  nres := s.resv.length
  ilen := s.ibuf.length
  spos := s.spos

end Sys2Proof.Machine
end

