-- ==== Sys2Proof/Machine/CodecDecode.lean ====
section
/-! DEFINITION. The decoder: DEC, DEC.X, RGET (R190 to R206). -/

namespace Sys2Proof.Machine

/-- `rd(p, o, n, j)`: a read checked against the payload's length, in naturals; "in `DEC` the out-of-range case is
`raise TruncatedDataError`" (R12, R190, R191). -/
def rd (p : List Byte) (o n j : Nat) : Except Raise (List Byte) :=
  match memRead p o n with
  | some b => .ok b
  | none => .error ⟨.truncatedDataError, j⟩

/-- A length-prefixed read through an offset: the word at `o` gives a natural `n`, then `unit * n` bytes at `o + 32`
are read (R198, R199); answers `n` and those bytes. -/
def rdCounted (p : List Byte) (o unit j : Nat) : Except Raise (Nat × List Byte) :=
  match rd p o 32 j with
  | .error r => .error r
  | .ok lw =>
    match rd p (o + 32) (unit * be lw) j with
    | .error r => .error r
    | .ok body => .ok (be lw, body)

/-- An address word's text: `hex0x` of "the low 20 bytes of the word" (R196). -/
def addressText (w : List Byte) : List Byte := hex0x (slice w 12 20)

/-- A `bool` word's result: bit 0 of the last byte, the other 255 bits ignored (R195). -/
def boolResult (w : List Byte) : List Byte := if (w.getD 31 0).getLsbD 0 then [0x01] else [0x00]

/-- The texts of `n` consecutive address words (R199). -/
def addressTexts (body : List Byte) (n : Nat) : List (List Byte) :=
  (List.range n).map fun k => addressText (slice body (32 * k) 32)

/-- The value of output `j` of declared type `t` whose head word is `w` (R190, R194 to R201). -/
def decValue (p w : List Byte) (j : Nat) (t : ValueType) : Except Raise (List Byte) :=
  match t with
  | .uint256 => .ok w
  | .bool => .ok (boolResult w)
  | .address => .ok (addressText w)
  | .bytes32 => .ok (hex0x w)
  | .string => (rdCounted p (be w) 1 j).map fun r => r.2
  | .addressArray => (rdCounted p (be w) 32 j).map fun r => joinComma (addressTexts r.2 r.1)
  | .unsupported _ => .error ⟨.unsupportedTypeError, j⟩

/-- Output `j`: head word, value, capacity check, in that order (R190, R202). -/
def decOutput (par : Params) (p : List Byte) (j : Nat) (tag : Byte) : Except Raise (List Byte) :=
  match rd p (32 * j) 32 j with
  | .error r => .error r
  | .ok w =>
    match decValue p w j (typeOfTag tag) with
    | .error r => .error r
    | .ok v => if par.bufFits v.length then .ok v else .error (raise0 .capacityFault)

/-- The loop of `DEC` from output `j` on (R190). -/
def decOutputs (par : Params) (p : List Byte) (j : Nat) : List Byte → Except Raise (List (List Byte))
  | [] => .ok []
  | tag :: tags =>
    match decOutput par p j tag with
    | .error r => .error r
    | .ok v =>
      match decOutputs par p (j + 1) tags with
      | .error r => .error r
      | .ok vs => .ok (v :: vs)

/-- `DEC` on the payload `p`: the empty payload gives no results whatever is declared (R192), else the loop; the whole
result list is replaced (R205). -/
def decPayload (p : List Byte) (s : State) : Except Raise State :=
  if p.isEmpty then .ok { s with resv := [] }
  else
    match decOutputs s.params p 0 s.otyp with
    | .error r => .error r
    | .ok vs => .ok { s with resv := vs }

/-- `DEC`: the payload is `IBUF` (R190). -/
def decEffect (s : State) : Except Raise State := decPayload s.ibuf s

/-- `DEC` (R190). -/
def execDec (s : State) : Answer := takeCommand (encode .dec) decEffect s

/-- `DEC.X`: the payload is `unhex(IBUF)`, malformed text raises `OperandFault` (R190, R204). -/
def decXEffect (s : State) : Except Raise State :=
  match unhex s.ibuf with
  | none => .error (raise0 .operandFault)
  | some p => decPayload p s

/-- `DEC.X` (R190). -/
def execDecX (s : State) : Answer := takeCommand (encode .decX) decXEffect s

/-- `RGET j`: `OBUF <- RESV[j]`, `RangeFault` for `j ≥ NRES` (R200). -/
def rgetEffect (j : BitVec 16) (s : State) : Except Raise State :=
  match s.resv[j.toNat]? with
  | none => .error (raise0 .rangeFault)
  | some v => .ok { s with obuf := v }

/-- `RGET j` (R200). -/
def execRget (j : BitVec 16) (s : State) : Answer := takeCommand (encode (.rget j)) (rgetEffect j) s

end Sys2Proof.Machine
end

