-- ==== Sys2Proof/Machine/CodecEncode.lean ====
section
/-! DEFINITION. The encoder: ENC, ENC.X (R170 to R183). -/

namespace Sys2Proof.Machine

/-- What one argument contributes: its head bytes, its tail segment, and how far the running offset moves (R170). -/
structure Segment where
  head : List Byte
  tail : List Byte
  advance : Nat
  deriving DecidableEq, Repr

/-- A static argument's contribution: one head word, nothing out of line (R140). -/
def staticSegment (w : List Byte) : Segment := ⟨w, [], 0⟩

/-- `enc_bool(a, i)` (R174). -/
def encBool (a : List Byte) (i : Nat) : Except Raise (List Byte) :=
  match a with
  | [b] => if b.toNat ≤ 1 then word b.toNat i else .error ⟨.operandFault, i⟩
  | _ => .error ⟨.operandFault, i⟩

/-- `enc_addr(a, i)` (R175). -/
def encAddr (a : List Byte) (i : Nat) : Except Raise (List Byte) :=
  match unhexExact 40 a with
  | some b => .ok (zeros 12 ++ b)
  | none => .error ⟨.invalidAddressError, i⟩

/-- `enc_b32(a, i)` (R176). -/
def encB32 (a : List Byte) (i : Nat) : Except Raise (List Byte) :=
  match unhexExact 64 a with
  | some b => .ok b
  | none => .error ⟨.invalidLengthError, i⟩

/-- The element words of an `address[]`, in order, stopping at the first bad element (R178). -/
def encAddrs (i : Nat) : List (List Byte) → Except Raise (List Byte)
  | [] => .ok []
  | e :: es =>
    match encAddr e i with
    | .error r => .error r
    | .ok w =>
      match encAddrs i es with
      | .error r => .error r
      | .ok ws => .ok (w ++ ws)

/-- A `string`: offset word in the head; length word, bytes and zero padding in the tail (R177). -/
def encString (a : List Byte) (i off : Nat) : Except Raise Segment :=
  match word off i with
  | .error r => .error r
  | .ok h =>
    match word a.length i with
    | .error r => .error r
    | .ok len => .ok ⟨h, len ++ a ++ zeros (ceil32 a.length - a.length), 32 + ceil32 a.length⟩

/-- An `address[]`: offset word in the head; count word and element words in the tail (R178). -/
def encArray (a : List Byte) (i off : Nat) : Except Raise Segment :=
  let es := pieces a
  match word off i with
  | .error r => .error r
  | .ok h =>
    match word es.length i with
    | .error r => .error r
    | .ok count =>
      match encAddrs i es with
      | .error r => .error r
      | .ok ws => .ok ⟨h, count ++ ws, 32 + 32 * es.length⟩

/-- One argument of declared type `t` at position `i` with the running offset `off` (R170, R173 to R179). -/
def encArg (t : ValueType) (a : List Byte) (i off : Nat) : Except Raise Segment :=
  match t with
  | .uint256 => (word (be a) i).map staticSegment
  | .bool => (encBool a i).map staticSegment
  | .address => (encAddr a i).map staticSegment
  | .bytes32 => (encB32 a i).map staticSegment
  | .string => encString a i off
  | .addressArray => encArray a i off
  | .unsupported _ => .error ⟨.unsupportedTypeError, i⟩

/-- The loop of `ENC` from position `i` with the running offset `off`: all heads, all tails, in argument order (R170,
R180). The two lists have equal lengths after the arity check (R171). -/
def encArgs (i off : Nat) : List Byte → List (List Byte) → Except Raise (List Byte × List Byte)
  | t :: ts, a :: as =>
    match encArg (typeOfTag t) a i off with
    | .error r => .error r
    | .ok seg =>
      match encArgs (i + 1) (off + seg.advance) ts as with
      | .error r => .error r
      | .ok (heads, tails) => .ok (seg.head ++ heads, seg.tail ++ tails)
  | _, _ => .ok ([], [])

/-- The payload `SELR ‖ head ‖ tail` of `ENC`, or the first fault in the order of R181, its part (1) to (3). -/
def encPayload (s : State) : Except Raise (List Byte) :=
  if !s.selv then .error (raise0 .sequenceFault)
  else if s.argv.length ≠ s.ityp.length then .error (raise0 .arityError)
  else
    match encArgs 0 (32 * s.ityp.length) s.ityp s.argv with
    | .error r => .error r
    | .ok (heads, tails) => .ok (s.selr.toList ++ heads ++ tails)

/-- `ENC` with the payload rendered by `render`: `OBUF` takes it if it fits, `CapacityFault` last (R170, R181). -/
def encInto (render : List Byte → List Byte) (s : State) : Except Raise State :=
  match encPayload s with
  | .error r => .error r
  | .ok p =>
    if s.params.bufFits (render p).length then .ok { s with obuf := render p }
    else .error (raise0 .capacityFault)

/-- `ENC` (R170). -/
def execEnc (s : State) : Answer := takeCommand (encode .enc) (encInto id) s

/-- `ENC.X` (R170, R180). -/
def execEncX (s : State) : Answer := takeCommand (encode .encX) (encInto hex0x) s

end Sys2Proof.Machine
end

