-- ==== Sys2Proof/Machine/Control.lean ====
section
/-! DEFINITION. Buffer and control commands: NOP, CLRERR, ICLR, IPUT, XFER (R210 to R214). -/

namespace Sys2Proof.Machine

/-- `NOP`: only `CP` advances (R210). -/
def nopEffect (s : State) : Except Raise State := .ok s

/-- `NOP` (R210). -/
def execNop (s : State) : Answer := takeCommand (encode .nop) nopEffect s

/-- `CLRERR`: "the only command executed while `ERR = 1`; with `ERR = 0` it is harmless" (R211, R229). -/
def execClrerr (s : State) : Answer := .next s.clearFault.advance

/-- `ICLR`: `ILEN <- 0` (R212). -/
def iclrEffect (s : State) : Except Raise State := .ok { s with ibuf := [] }

/-- `ICLR` (R212). -/
def execIclr (s : State) : Answer := takeCommand (encode .iclr) iclrEffect s

/-- `IPUT b`: appends `b`, `CapacityFault` at `ILEN = BUF_CAP` (R213). -/
def iputEffect (b : BitVec 8) (s : State) : Except Raise State :=
  if s.params.bufCap = some s.ibuf.length then .error (raise0 .capacityFault)
  else .ok { s with ibuf := s.ibuf ++ [b] }

/-- `IPUT b` (R213). -/
def execIput (b : BitVec 8) (s : State) : Answer := takeCommand (encode (.iput b)) (iputEffect b) s

/-- `XFER k`: `IBUF <- OBUF[k..OLEN)`, `RangeFault` for `k > OLEN` (R214). -/
def xferEffect (k : BitVec 16) (s : State) : Except Raise State :=
  if s.obuf.length < k.toNat then .error (raise0 .rangeFault)
  else .ok { s with ibuf := s.obuf.drop k.toNat }

/-- `XFER k` (R214). -/
def execXfer (k : BitVec 16) (s : State) : Answer := takeCommand (encode (.xfer k)) (xferEffect k) s

end Sys2Proof.Machine
end

