-- ==== Sys2Proof/Machine/Sponge.lean ====
section
/-! DEFINITION. Sponge controller commands: ABS, SQZ, HASH, HASH.X (R126 to R129). -/

namespace Sys2Proof.Machine

/-- `ABS`: `A <- absorb(A, pad(IBUF))`, `SPOS <- 0` (R126). -/
def absEffect (s : State) : Except Raise State :=
  .ok { s with lanes := absorb s.lanes (pad s.ibuf), spos := 0 }

/-- `ABS` (R126). -/
def execAbs (s : State) : Answer := takeCommand (encode .abs) absEffect s

/-- `SQZ n`: `(A, SPOS, OBUF) <- squeeze(A, SPOS, n)`, `CapacityFault` for `n > BUF_CAP`, checked first (R127). -/
def sqzEffect (n : BitVec 16) (s : State) : Except Raise State :=
  if s.params.bufFits n.toNat then
    let r := squeeze s.lanes s.spos n.toNat
    .ok { s with lanes := r.lanes, spos := r.spos, obuf := r.out }
  else .error (raise0 .capacityFault)

/-- `SQZ n` (R127). -/
def execSqz (n : BitVec 16) (s : State) : Answer := takeCommand (encode (.sqz n)) (sqzEffect n) s

/-- What `HASH` and `SEL` share: the hash of `IBUF` from the all-zero state leaves its lanes and `SPOS = 32`;
`render` says which bytes of the digest's squeeze `OBUF` takes (R128, R129, R150). -/
def hashInto (render : List Byte → List Byte) (s : State) : State :=
  let r := digestSqueeze s.ibuf
  { s with lanes := r.lanes, spos := Config.digest, obuf := render r.out }

/-- `HASH`: `OBUF <- keccak256(IBUF)` (R128). -/
def hashEffect (s : State) : Except Raise State := .ok (hashInto id s)

/-- `HASH` (R128). -/
def execHash (s : State) : Answer := takeCommand (encode .hash) hashEffect s

/-- `HASH.X`: as `HASH` with the digest as hex text (R129). -/
def hashXEffect (s : State) : Except Raise State := .ok (hashInto hex0x s)

/-- `HASH.X` (R129). -/
def execHashX (s : State) : Answer := takeCommand (encode .hashX) hashXEffect s

end Sys2Proof.Machine
end

