-- ==== Sys2Proof/Machine/Descriptor.lean ====
section
/-! DEFINITION. Descriptor and staging commands: SEL, SEL.X, DCLR, TIN, TOUT, ACLR, APUSH (R150 to R155). -/

namespace Sys2Proof.Machine

/-- `SEL` and `SEL.X`: hash `IBUF`, `SELR <- d[0..4)`, `SELV <- 1`, and the 4 bytes, rendered, to `OBUF` (R150). -/
def selInto (render : List Byte → List Byte) (s : State) : State :=
  (hashInto (fun d => render (d.take Config.selLen)) s).setSelector (keccak256 s.ibuf)

/-- `SEL` (R150). -/
def selEffect (s : State) : Except Raise State := .ok (selInto id s)

/-- `SEL` (R150). -/
def execSel (s : State) : Answer := takeCommand (encode .sel) selEffect s

/-- `SEL.X` (R150). -/
def selXEffect (s : State) : Except Raise State := .ok (selInto hex0x s)

/-- `SEL.X` (R150). -/
def execSelX (s : State) : Answer := takeCommand (encode .selX) selXEffect s

/-- `DCLR`: both type lists empty, the selector cleared (R151). -/
def dclrEffect (s : State) : Except Raise State := .ok { s.clearSelector with ityp := [], otyp := [] }

/-- `DCLR` (R151). -/
def execDclr (s : State) : Answer := takeCommand (encode .dclr) dclrEffect s

/-- `TIN t`: appends any tag 0..255, `CapacityFault` at `NIN = LIST_CAP` (R152, R75). -/
def tinEffect (t : BitVec 8) (s : State) : Except Raise State :=
  if s.ityp.length = s.params.listCap then .error (raise0 .capacityFault)
  else .ok { s with ityp := s.ityp ++ [t] }

/-- `TIN t` (R152). -/
def execTin (t : BitVec 8) (s : State) : Answer := takeCommand (encode (.tin t)) (tinEffect t) s

/-- `TOUT t`: appends any tag 0..255, `CapacityFault` at `NOUT = LIST_CAP` (R153, R75). -/
def toutEffect (t : BitVec 8) (s : State) : Except Raise State :=
  if s.otyp.length = s.params.listCap then .error (raise0 .capacityFault)
  else .ok { s with otyp := s.otyp ++ [t] }

/-- `TOUT t` (R153). -/
def execTout (t : BitVec 8) (s : State) : Answer := takeCommand (encode (.tout t)) (toutEffect t) s

/-- `ACLR`: `NARG <- 0` (R154). -/
def aclrEffect (s : State) : Except Raise State := .ok { s with argv := [] }

/-- `ACLR` (R154). -/
def execAclr (s : State) : Answer := takeCommand (encode .aclr) aclrEffect s

/-- `APUSH`: stages a copy of `IBUF`, `CapacityFault` at `NARG = LIST_CAP` (R155). -/
def apushEffect (s : State) : Except Raise State :=
  if s.argv.length = s.params.listCap then .error (raise0 .capacityFault)
  else .ok { s with argv := s.argv ++ [s.ibuf] }

/-- `APUSH` (R155). -/
def execApush (s : State) : Answer := takeCommand (encode .apush) apushEffect s

end Sys2Proof.Machine
end

