-- ==== Sys2Proof/Machine/Permutation.lean ====
section
/-! DEFINITION. Permutation engine commands: PCLR, PRND, PERM (R109 to R111). -/

namespace Sys2Proof.Machine

/-- `PCLR`: all lanes 0, `SPOS <- 0` (R109). -/
def pclrEffect (s : State) : Except Raise State := .ok { s with lanes := zeroLanes, spos := 0 }

/-- `PCLR` (R109). -/
def execPclr (s : State) : Answer := takeCommand (encode .pclr) pclrEffect s

/-- `PRND r`: `A <- Round(A, r)` (R110). The word of an operand above 23 is illegal (R74), so the term that
stands for it does what its word does (log 9). -/
def prndEffect (r : BitVec 5) (s : State) : Except Raise State :=
  if h : r.toNat < 24 then .ok { s with lanes := keccakRound s.lanes ⟨r.toNat, h⟩ }
  else .error (raise0 .illegalCommand)

/-- `PRND r` (R110). -/
def execPrnd (r : BitVec 5) (s : State) : Answer := takeCommand (encode (.prnd r)) (prndEffect r) s

/-- `PERM`: `A <- f(A)` (R111). -/
def permEffect (s : State) : Except Raise State := .ok { s with lanes := keccakF s.lanes }

/-- `PERM` (R111). -/
def execPerm (s : State) : Answer := takeCommand (encode .perm) permEffect s

end Sys2Proof.Machine
end

