-- ==== Sys2Proof/Machine/Dispatch.lean ====
section
/-! DEFINITION. The meaning of every command, one arm per constructor. -/

namespace Sys2Proof.Machine

def exec (i : Instr) (s : State) : Host.Outcome State Fault Refusal :=
  match i with
  | .nop => Sys2Proof.Machine.execNop s
  | .clrerr => Sys2Proof.Machine.execClrerr s
  | .iclr => Sys2Proof.Machine.execIclr s
  | .iput b => Sys2Proof.Machine.execIput b s
  | .xfer k => Sys2Proof.Machine.execXfer k s
  | .pclr => Sys2Proof.Machine.execPclr s
  | .prnd r => Sys2Proof.Machine.execPrnd r s
  | .perm => Sys2Proof.Machine.execPerm s
  | .abs => Sys2Proof.Machine.execAbs s
  | .sqz n => Sys2Proof.Machine.execSqz n s
  | .hash => Sys2Proof.Machine.execHash s
  | .hashX => Sys2Proof.Machine.execHashX s
  | .sel => Sys2Proof.Machine.execSel s
  | .selX => Sys2Proof.Machine.execSelX s
  | .dclr => Sys2Proof.Machine.execDclr s
  | .tin t => Sys2Proof.Machine.execTin t s
  | .tout t => Sys2Proof.Machine.execTout t s
  | .aclr => Sys2Proof.Machine.execAclr s
  | .apush => Sys2Proof.Machine.execApush s
  | .enc => Sys2Proof.Machine.execEnc s
  | .encX => Sys2Proof.Machine.execEncX s
  | .dec => Sys2Proof.Machine.execDec s
  | .decX => Sys2Proof.Machine.execDecX s
  | .rget j => Sys2Proof.Machine.execRget j s

end Sys2Proof.Machine
end

