-- ==== Sys2Proof/Machine/Step.lean ====
section
/-! DEFINITION. One step: the host's next move (R245), a pushed word taken as R76 says; loading a program (R11). -/

namespace Sys2Proof.Machine

/-- A command word is taken: its command, or the verdict "illegal" (R76, R80). Both skip while latched (R228). -/
def takeWord (w : CmdWord) (s : State) : Host.Outcome State Fault Refusal :=
  match decode w with
  | some i => exec i s
  | none => takeIllegal w s

/-- One step: the host's first move to come happens. With none to come the engine does nothing: "it acts exactly when
a word is pushed" (R244, log 2). -/
def step (s : State) : Host.Outcome State Fault Refusal :=
  match s.moves with
  | [] => .next s
  | .assertReset :: rest => .next { s with moves := rest }.assertReset
  | .push w :: rest => takeWord w { s with moves := rest }

/-- The host's next move is to push the word (log 3). -/
def State.withFetchWord (s : State) (nbits w : Nat) : State :=
  { s with moves := .push (tableWord nbits w) :: s.moves }

/-- A program of command words as the host's moves to come (R11). -/
def State.withProgram (ws : List CmdWord) (s : State) : State := { s with moves := ws.map .push }

end Sys2Proof.Machine
end

