-- ==== Sys2Proof/Machine/Assembler.lean ====
section
/-! DEFINITION. Assembler syntax and pseudo-commands (R78, R79): how a program's words are written. -/

namespace Sys2Proof.Machine

/-- The tag a type name stands for in `TIN` and `TOUT` (R78, R140). -/
def tagOfName (name : String) : Option Byte :=
  if name = "uint256" then some 0
  else if name = "bytes32" then some 1
  else if name = "address" then some 2
  else if name = "bool" then some 3
  else if name = "string" then some 4
  else if name = "address[]" then some 5
  else none

/-- One line of a program: a command, or a pseudo-command of R79 with its text already as bytes. -/
inductive AsmLine where
  /-- a command by its mnemonic (R78) -/
  | command (i : Instr)
  /-- `ISTR "text"` and `IHEX h0 h1 ...` -/
  | input (bytes : List Byte)
  /-- `ARG "text"` and `ARGHEX h0 h1 ...` -/
  | arg (bytes : List Byte)
  /-- `HASHHEX` -/
  | hashhex
  /-- `DESC sig, (in...), (out...)` -/
  | desc (sig ins outs : List Byte)
  deriving DecidableEq, Repr

/-- `ICLR`, then `IPUT c` for each byte in order (R79). -/
def inputCommands (bytes : List Byte) : List Instr := .iclr :: bytes.map .iput

/-- The commands a line stands for (R79). -/
def AsmLine.expand : AsmLine → List Instr
  | .command i => [i]
  | .input bytes => inputCommands bytes
  | .arg bytes => inputCommands bytes ++ [.apush]
  | .hashhex => [.hashX]
  | .desc sig ins outs => .dclr :: inputCommands sig ++ .sel :: ins.map .tin ++ outs.map .tout

/-- The words of a program (R11, R78). -/
def assemble (prog : List AsmLine) : List CmdWord := (prog.flatMap AsmLine.expand).map encode

/-- A command as R78 writes it: mnemonic in capitals, `.X` suffix, operand in decimal. -/
def asmText : Instr → String
  | .nop => "NOP"
  | .clrerr => "CLRERR"
  | .iclr => "ICLR"
  | .iput b => "IPUT " ++ toString b.toNat
  | .xfer k => "XFER " ++ toString k.toNat
  | .pclr => "PCLR"
  | .prnd r => "PRND " ++ toString r.toNat
  | .perm => "PERM"
  | .abs => "ABS"
  | .sqz n => "SQZ " ++ toString n.toNat
  | .hash => "HASH"
  | .hashX => "HASH.X"
  | .sel => "SEL"
  | .selX => "SEL.X"
  | .dclr => "DCLR"
  | .tin t => "TIN " ++ toString t.toNat
  | .tout t => "TOUT " ++ toString t.toNat
  | .aclr => "ACLR"
  | .apush => "APUSH"
  | .enc => "ENC"
  | .encX => "ENC.X"
  | .dec => "DEC"
  | .decX => "DEC.X"
  | .rget j => "RGET " ++ toString j.toNat

end Sys2Proof.Machine
end

