-- ==== Sys2Proof/Safety.lean ====
section
/-! DEFINITION. What counts as a good state and a good run, and the spec's tables that statements are written in:
the ranges of the state (R21 to R32), runs (R11), the access table (R35), the fault table (R220), the payload layout
(R156, R157) and what a decode needs of its payload (R191 to R199). -/

namespace Sys2Proof.Machine

/-! ### Ranges of the state -/

/-- The ranges rules R21 to R32 give the state, and what the error registers can hold (R220, R222, R228). -/
structure State.Inv (s : State) : Prop where
  /-- R9 -/
  params_legal : s.params.legal = true
  /-- R23 -/
  spos_range : s.spos ≤ Config.rate
  /-- R24 -/
  ibuf_fits : s.params.bufFits s.ibuf.length = true
  /-- R25 -/
  obuf_fits : s.params.bufFits s.obuf.length = true
  /-- R26: `SELR` holds zero when no selector is valid (R36, R151) -/
  selr_clear : s.selv = false → s.selr = Vector.replicate 4 0
  /-- R27 -/
  ityp_range : s.ityp.length ≤ s.params.listCap
  /-- R27 -/
  otyp_range : s.otyp.length ≤ s.params.listCap
  /-- R28 -/
  argv_range : s.argv.length ≤ s.params.listCap
  /-- R28 -/
  argv_fits : ∀ a ∈ s.argv, s.params.bufFits a.length = true
  /-- R29 -/
  resv_range : s.resv.length ≤ s.params.listCap
  /-- R29 -/
  resv_fits : ∀ v ∈ s.resv, s.params.bufFits v.length = true
  /-- R30, R220: no fault recorded while `ERR = 0` -/
  clear_unlatched : s.err = false → s.ecode = 0 ∧ s.epos = 0 ∧ s.ecmd = 0 ∧ s.ecp = 0
  /-- R220: `ECODE` 0, 7 and 13 to 15 are never written by a fault -/
  code_latched : s.err = true → s.ecode ∈ [1, 2, 3, 4, 5, 6, 8, 9, 10, 11, 12]
  /-- R220, column `EPOS` -/
  epos_zero : s.ecode ∈ [1, 8, 9, 10, 11] → s.epos = 0
  /-- R222: `IllegalCommand` records exactly the words the decoder does not accept -/
  illegal_recorded : s.err = true → (s.ecode = 8 ↔ decode s.ecmd = none)

/-! ### Runs -/

/-- The commands of a list in order, each on the state the one before it left. -/
def execAll : List Instr → State → Host.Outcome State Fault Refusal
  | [], s => .next s
  | i :: is, s =>
    match exec i s with
    | .next t => execAll is t
    | .fault r => .fault r
    | .refused r => .refused r

/-- A run: reset, then each word of the list, one step each (R11). -/
def runProgram (p : Params) (ws : List CmdWord) : Host.Outcome State Fault Refusal :=
  core.run ws.length ((State.resetWith p).withProgram ws)

/-- "the run *succeeded* when the final `ERR` is 0" (R11). -/
def runSucceeded (p : Params) (ws : List CmdWord) : Bool :=
  match runProgram p ws with
  | .next s => !s.err
  | .fault _ => false
  | .refused _ => false

/-! ### The access table (R35) -/

/-- The columns of the table of R35. -/
inductive Part where
  | a
  | spos
  | ibuf
  | obuf
  | selector
  | ityp
  | otyp
  | argv
  | resv
  | errorRegs
  deriving DecidableEq, Repr

/-- The two states hold the same in that column. -/
def Part.same (s t : State) : Part → Prop
  | .a => t.lanes = s.lanes
  | .spos => t.spos = s.spos
  | .ibuf => t.ibuf = s.ibuf
  | .obuf => t.obuf = s.obuf
  | .selector => t.selr = s.selr ∧ t.selv = s.selv
  | .ityp => t.ityp = s.ityp
  | .otyp => t.otyp = s.otyp
  | .argv => t.argv = s.argv
  | .resv => t.resv = s.resv
  | .errorRegs => t.err = s.err ∧ t.ecode = s.ecode ∧ t.epos = s.epos ∧ t.ecmd = s.ecmd ∧ t.ecp = s.ecp

/-- The columns marked "w" in R35. -/
def writes : Instr → List Part
  | .nop => []
  | .clrerr => [.errorRegs]
  | .iclr => [.ibuf]
  | .iput _ => [.ibuf]
  | .xfer _ => [.ibuf]
  | .pclr => [.a, .spos]
  | .prnd _ => [.a]
  | .perm => [.a]
  | .abs => [.a, .spos]
  | .sqz _ => [.a, .spos, .obuf]
  | .hash => [.a, .spos, .obuf]
  | .hashX => [.a, .spos, .obuf]
  | .sel => [.a, .spos, .obuf, .selector]
  | .selX => [.a, .spos, .obuf, .selector]
  | .dclr => [.selector, .ityp, .otyp]
  | .tin _ => [.ityp]
  | .tout _ => [.otyp]
  | .aclr => [.argv]
  | .apush => [.argv]
  | .enc => [.obuf]
  | .encX => [.obuf]
  | .dec => [.resv]
  | .decX => [.resv]
  | .rget _ => [.obuf]

/-- The columns marked "r" in R35. -/
def reads : Instr → List Part
  | .nop => []
  | .clrerr => []
  | .iclr => []
  | .iput _ => [.ibuf]
  | .xfer _ => [.obuf]
  | .pclr => []
  | .prnd _ => [.a]
  | .perm => [.a]
  | .abs => [.a, .ibuf]
  | .sqz _ => [.a, .spos]
  | .hash => [.ibuf]
  | .hashX => [.ibuf]
  | .sel => [.ibuf]
  | .selX => [.ibuf]
  | .dclr => []
  | .tin _ => [.ityp]
  | .tout _ => [.otyp]
  | .aclr => []
  | .apush => [.ibuf, .argv]
  | .enc => [.selector, .ityp, .argv]
  | .encX => [.selector, .ityp, .argv]
  | .dec => [.ibuf, .otyp]
  | .decX => [.ibuf, .otyp]
  | .rget _ => [.resv]

/-! ### The fault table (R220) -/

/-- The codes the column "raised by" of R220 gives each command. -/
def raisedCodes : Instr → List (BitVec 4)
  | .nop => []
  | .clrerr => []
  | .iclr => []
  | .iput _ => [9]
  | .xfer _ => [10]
  | .pclr => []
  | .prnd _ => []
  | .perm => []
  | .abs => []
  | .sqz _ => [9]
  | .hash => []
  | .hashX => []
  | .sel => []
  | .selX => []
  | .dclr => []
  | .tin _ => [9]
  | .tout _ => [9]
  | .aclr => []
  | .apush => [9]
  | .enc => [1, 2, 3, 4, 5, 9, 11, 12]
  | .encX => [1, 2, 3, 4, 5, 9, 11, 12]
  | .dec => [5, 6, 9]
  | .decX => [5, 6, 9, 12]
  | .rget _ => [10]

/-- The commands that leave the same state when executed twice in a row as once, apart from `CP` (R59). -/
def idempotent : Instr → Bool
  | .nop => true
  | .clrerr => true
  | .iclr => true
  | .iput _ => false
  | .xfer _ => true
  | .pclr => true
  | .prnd _ => false
  | .perm => false
  | .abs => false
  | .sqz _ => false
  | .hash => true
  | .hashX => true
  | .sel => true
  | .selX => true
  | .dclr => true
  | .tin _ => false
  | .tout _ => false
  | .aclr => true
  | .apush => false
  | .enc => true
  | .encX => true
  | .dec => true
  | .decX => true
  | .rget _ => true

/-! ### The payload layout (R156, R157) -/

/-- An address as a codec word: 12 zero bytes and the 20 bytes of its text (R53, R175). -/
def addressWord (text : List Byte) : List Byte := zeros 12 ++ (unhex text).getD []

/-- The tail segment of an argument (R157); a static argument has none. -/
def tailSegment (t : ValueType) (a : List Byte) : List Byte :=
  match t with
  | .string => wordBytes a.length ++ a ++ zeros (ceil32 a.length - a.length)
  | .addressArray => wordBytes (pieces a).length ++ (pieces a).flatMap addressWord
  | .uint256 => []
  | .bytes32 => []
  | .address => []
  | .bool => []
  | .unsupported _ => []

/-- The head word of an argument: the value inline, or the offset of its tail segment (R140, R156, R173 to R178). -/
def headWord (t : ValueType) (a : List Byte) (off : Nat) : List Byte :=
  match t with
  | .uint256 => wordBytes (be a)
  | .bool => wordBytes (be a)
  | .bytes32 => (unhex a).getD []
  | .address => addressWord a
  | .string => wordBytes off
  | .addressArray => wordBytes off
  | .unsupported _ => []

/-- The tail segments of the staged arguments, in argument order (R156). -/
def tailSegments (s : State) : List (List Byte) :=
  (s.ityp.zip s.argv).map fun (t, a) => tailSegment (typeOfTag t) a

/-- Where the tail segment of argument `i` begins, counted from the start of the head: "`off = 32 * NIN + len(tail)`"
with the tail segments before it (R172). -/
def offsetOf (s : State) (i : Nat) : Nat := 32 * s.ityp.length + ((tailSegments s).take i).flatten.length

/-- The call payload of R156: `selector ‖ head ‖ tail`. -/
def callPayload (s : State) : List Byte :=
  s.selr.toList
    ++ ((s.ityp.zip s.argv).zipIdx.flatMap fun ((t, a), i) => headWord (typeOfTag t) a (offsetOf s i))
    ++ (tailSegments s).flatten

/-- Every staged argument is acceptable for its declared type (R146), and its number is the declared one (R171). -/
def argumentsAcceptable (s : State) : Bool :=
  s.argv.length = s.ityp.length ∧ (s.ityp.zip s.argv).all fun (t, a) => acceptable (typeOfTag t) a

/-- The fault of an operand that is not acceptable for its type (R146, R179). -/
def operandFaultCode : ValueType → BitVec 4
  | .uint256 => 4
  | .bool => 12
  | .address => 2
  | .bytes32 => 3
  | .string => 0
  | .addressArray => 2
  | .unsupported _ => 5

/-! ### What a decode needs of its payload (R191 to R199) -/

/-- The natural in the word of the payload at `o` (R190). -/
def wordAt (p : List Byte) (o : Nat) : Nat := be (slice p o 32)

/-- Every byte range output `j` needs is inside the payload, its head word's range included (R191, R193, R198, R199). -/
def rangesInside (p : List Byte) (j : Nat) (t : ValueType) : Bool :=
  let o := wordAt p (32 * j)
  match t with
  | .string => 32 * j + 32 ≤ p.length ∧ o + 32 ≤ p.length ∧ o + 32 + wordAt p o ≤ p.length
  | .addressArray => 32 * j + 32 ≤ p.length ∧ o + 32 ≤ p.length ∧ o + 32 + 32 * wordAt p o ≤ p.length
  | .uint256 => 32 * j + 32 ≤ p.length
  | .bytes32 => 32 * j + 32 ≤ p.length
  | .address => 32 * j + 32 ≤ p.length
  | .bool => 32 * j + 32 ≤ p.length
  | .unsupported _ => 32 * j + 32 ≤ p.length

/-- The result of output `j` of a payload that holds its ranges (R147, R194 to R199). -/
def resultOf (p : List Byte) (j : Nat) (t : ValueType) : List Byte :=
  let w := slice p (32 * j) 32
  match t with
  | .uint256 => w
  | .bool => if be w % 2 = 1 then [0x01] else [0x00]
  | .address => hex0x (w.drop 12)
  | .bytes32 => hex0x w
  | .string => slice p (be w + 32) (wordAt p (be w))
  | .addressArray =>
    joinComma ((List.range (wordAt p (be w))).map fun k => hex0x (slice p (be w + 32 + 32 * k + 12) 20))
  | .unsupported _ => []

/-- The declared type is in the catalogue (R201). -/
def supported : ValueType → Bool
  | .uint256 => true
  | .bytes32 => true
  | .address => true
  | .bool => true
  | .string => true
  | .addressArray => true
  | .unsupported _ => false

/-- Output `j` decodes: its ranges are inside, its type is in the catalogue, its result fits a buffer (R202). -/
def outputReadable (par : Params) (p : List Byte) (j : Nat) (t : ValueType) : Bool :=
  rangesInside p j t && supported t && par.bufFits (resultOf p j t).length

end Sys2Proof.Machine
end

