-- ==== Sys2Proof/Certificates/Slice0/Obligations.lean ====
section
/-! DEFINITION. The statements for the provers, each from numbered rules of the spec. -/

open Sys2Proof Sys2Proof.Machine

/-! ### Encoding -/

/-- R70, R73, R80: the decoder gives every command with legal operands back from its word, with every operand at every
value its field admits. -/
def Obligations.DecodeInvertsEncode : Prop :=
  ∀ i : Instr, wellFormed i = true → decode (encode i) = some i

/-- R73, R80: an accepted word is the word of the command it decodes to, so every accepted word has one command and every
command one word; no bit of an accepted word is dropped. -/
def Obligations.AcceptedWordIsItsCommandsWord : Prop :=
  ∀ (w : CmdWord) (i : Instr), decode w = some i → encode i = w ∧ wellFormed i = true

/-- R74 with R71 and R72: the illegal words are exactly the listed ones, said on the word's fields. -/
def Obligations.IllegalWordsAreExactlyTheListed : Prop :=
  ∀ w : CmdWord,
    let opc := (w >>> 24).toNat
    let x := w.getLsbD 23
    let mustBeZero := (w >>> 16).toNat % 128
    let imm := w.toNat % 65536
    decode w = none ↔
      opc ∉ [0x00, 0x01, 0x02, 0x03, 0x04, 0x10, 0x11, 0x12, 0x20, 0x21, 0x22, 0x30, 0x31, 0x32, 0x33, 0x34, 0x35, 0x40, 0x50, 0x51]
      ∨ mustBeZero ≠ 0
      ∨ (x = true ∧ opc ∉ [0x22, 0x30, 0x40, 0x50])
      ∨ (opc ∈ [0x03, 0x32, 0x33] ∧ 255 < imm)
      ∨ (opc = 0x11 ∧ 23 < imm)
      ∨ (opc ∉ [0x03, 0x04, 0x11, 0x21, 0x32, 0x33, 0x51] ∧ imm ≠ 0)

/-- R73: a word is a command exactly when it satisfies that command's match/mask row (and, for PRND, has an operand of
at most 23), and no word satisfies two rows. -/
def Obligations.MaskTableAgreesWithDecoder : Prop :=
  (∀ (w : CmdWord) (i : Instr), decode w = some i → w &&& (maskRow i).mask = (maskRow i).pattern)
  ∧ (∀ (w : CmdWord) (row : Instr), row ∈ tableRows → w &&& (maskRow row).mask = (maskRow row).pattern →
      (row = .prnd 0 → w.toNat % 32 ≤ 23) → ∃ i, decode w = some i ∧ maskRow i = maskRow row)
  ∧ tableRows.Pairwise fun a b => ∀ w : CmdWord,
      ¬ (w &&& (maskRow a).mask = (maskRow a).pattern ∧ w &&& (maskRow b).mask = (maskRow b).pattern)

/-- R73 on written-out words, at least one of every family (95_test_vectors.md section 2.1). -/
def Obligations.SampleWordsDecode : Prop :=
  decode 0x030000FF = some (.iput 255) ∧ decode 0x11000017 = some (.prnd 23) ∧ decode 0x11000018 = none
  ∧ decode 0x22800000 = some .hashX ∧ decode 0x320000FF = some (.tin 255) ∧ decode 0x40800000 = some .encX
  ∧ decode 0x5100FFFF = some (.rget 65535) ∧ decode 0x21800000 = none ∧ decode 0x12400000 = none

/-! ### The step -/

/-- R76: when the word the host pushes decodes to a command, the step is that command's meaning; the step itself only
takes the push out of the host's moves. -/
def Obligations.StepRunsTheDecodedCommand : Prop :=
  ∀ (s : State) (w : CmdWord) (rest : List HostMove) (i : Instr),
    s.moves = .push w :: rest → decode w = some i → step s = exec i { s with moves := rest }

/-- R222 and R227: an illegal word pushed while `ERR = 0` raises IllegalCommand, `EPOS = 0`, `ECMD` the word. -/
def Obligations.IllegalWordRaisesIllegalCommand : Prop :=
  ∀ (s : State) (w : CmdWord) (rest : List HostMove),
    s.moves = .push w :: rest → decode w = none → s.err = false →
      step s = .next { s with
        moves := rest, err := true, ecode := 8, epos := 0, ecmd := w, ecp := s.cp, cp := s.cp + 1 }

/-- R228: while `ERR = 1` every word except `0x01000000`, legal or illegal, only advances `CP`. -/
def Obligations.LatchedWordsOnlyAdvanceCp : Prop :=
  ∀ (s : State) (w : CmdWord) (rest : List HostMove),
    s.moves = .push w :: rest → s.err = true → w ≠ 0x01000000 →
      step s = .next { s with moves := rest, cp := s.cp + 1 }

/-- R31: every word taken, executed, faulting or skipped, adds one to `CP` modulo 2^32; it also uses up its push and
leaves the open parameters alone. -/
def Obligations.EveryWordTakenAdvancesCp : Prop :=
  ∀ (s : State) (w : CmdWord) (rest : List HostMove), s.moves = .push w :: rest →
    ∃ t, step s = .next t ∧ t.cp.toNat = (s.cp.toNat + 1) % 2 ^ 32 ∧ t.moves = rest ∧ t.params = s.params

/-- R31: after a run of `n` words from reset `CP` holds `n` modulo 2^32. -/
def Obligations.CpCountsTheWordsOfARun : Prop :=
  ∀ (p : Params) (ws : List CmdWord),
    ∃ t, runProgram p ws = .next t ∧ t.cp.toNat = ws.length % 2 ^ 32 ∧ t.moves = []

/-- R76: every state has exactly one next state; nothing is stuck and nothing refused. With no host move to come the
state stays (R244; the model's choice, log 2). -/
def Obligations.EveryStateHasANextState : Prop :=
  (∀ s : State, ∃ t, step s = .next t) ∧ ∀ s : State, s.moves = [] → step s = .next s

/-- R61, R11: the words of a program run in order, each on the state the one before left; a run of a concatenation is
the run of its first part and then of its second. -/
def Obligations.ProgramOrderIsExecutionOrder : Prop :=
  ∀ (s : State) (us vs : List CmdWord), ∃ t,
    core.run us.length (s.withProgram us) = .next t
    ∧ core.run (us ++ vs).length (s.withProgram (us ++ vs)) = core.run vs.length (t.withProgram vs)

/-! ### Reset and the invariant -/

/-- R36, R260: whatever the state held, the reset move leaves every register at the value of the table; the open
parameters stay (R9), and so do the host's further moves (the model's choice, log 8). -/
def Obligations.ResetMoveGivesTheTabulatedValues : Prop :=
  ∀ (s : State) (rest : List HostMove), s.moves = .assertReset :: rest → ∃ t, step s = .next t
    ∧ (∀ i : Fin 25, t.lanes[i] = 0) ∧ t.spos = 0 ∧ t.ibuf = [] ∧ t.obuf = [] ∧ t.selr.toList = [0, 0, 0, 0] ∧ t.selv = false
    ∧ t.ityp = [] ∧ t.otyp = [] ∧ t.argv = [] ∧ t.resv = []
    ∧ t.err = false ∧ t.ecode = 0 ∧ t.epos = 0 ∧ t.ecmd = 0 ∧ t.ecp = 0 ∧ t.cp = 0
    ∧ t.params = s.params ∧ t.moves = rest

/-- R36, R9: the reset state is in the ranges of R21 to R32 for every legal value of the open parameters. -/
def Obligations.ResetStateIsInRange : Prop :=
  (∀ p : Params, p.legal = true → (State.resetWith p).Inv) ∧ State.reset.Inv

/-- R21 to R32, R220, R222, R224: every step, from every state in range, gives a state in range: buffers and lists within
their capacities, `SPOS` at most 136, the error registers clear exactly when no fault is latched and holding only
tabulated codes, `SELR` zero while no selector is valid. -/
def Obligations.StepKeepsTheStateInRange : Prop :=
  ∀ s t : State, s.Inv → step s = .next t → t.Inv

/-! ### Faults -/

/-- R226, R227: a command that faults changes the five error registers and `CP` and nothing else. -/
def Obligations.FaultsArePrecise : Prop :=
  ∀ (i : Instr) (s t : State), s.err = false → exec i s = .next t → t.err = true →
    ∃ code pos, t = { s with
      err := true, ecode := code, epos := BitVec.ofNat 16 pos, ecmd := encode i, ecp := s.cp, cp := s.cp + 1 }

/-- R220: each command raises only the codes the table gives it, and ArityError, IllegalCommand, CapacityFault, RangeFault and
SequenceFault always have position 0. -/
def Obligations.FaultCodesAreTheTabulated : Prop :=
  ∀ (i : Instr) (s t : State), wellFormed i = true → s.err = false → exec i s = .next t → t.err = true →
    t.ecode ∈ raisedCodes i ∧ (t.ecode ∈ [1, 8, 9, 10, 11] → t.epos = 0)

/-- R220, R233: these commands never fault once decoded. -/
def Obligations.FaultFreeCommandsComplete : Prop :=
  ∀ (i : Instr) (s : State),
    i ∈ [.nop, .clrerr, .iclr, .pclr, .perm, .abs, .hash, .hashX, .sel, .selX, .dclr, .aclr] ∨ (∃ r, i = .prnd r ∧ r.toNat ≤ 23) →
    s.err = false → ∃ t, exec i s = .next t ∧ t.err = false

/-- R234: after CLRERR the same command faults again in the same way. -/
def Obligations.FaultsAreNotRetriable : Prop :=
  ∀ (i : Instr) (s t u : State), s.err = false → exec i s = .next t → t.err = true → exec .clrerr t = .next u →
    ∃ v, exec i u = .next v ∧ v.err = true ∧ v.ecode = t.ecode ∧ v.epos = t.epos ∧ v.ecmd = t.ecmd ∧ v.ecp = s.cp + 2

/-- R211, R229: CLRERR clears `ERR` and the error registers in every state, latched or not, and after a fault it gives the
state as the faulting command found it, but for `CP`. -/
def Obligations.ClrerrRestoresTheStateBeforeTheFault : Prop :=
  (∀ s : State, exec .clrerr s = .next { s with
      err := false, ecode := 0, epos := 0, ecmd := 0, ecp := 0, cp := s.cp + 1 })
  ∧ ∀ (i : Instr) (s t : State), s.Inv → s.err = false → exec i s = .next t → t.err = true →
      exec .clrerr t = .next { s with cp := s.cp + 2 }

/-! ### The access table -/

/-- R35, the "w" entries: a command that does not fault leaves every column it is not marked "w" in as it was, and `CP`
advances. -/
def Obligations.WritesAreTheTabulated : Prop :=
  ∀ (i : Instr) (s t : State), s.err = false → exec i s = .next t → t.err = false →
    (∀ p, p ∉ writes i → Part.same s t p) ∧ t.cp = s.cp + 1 ∧ t.params = s.params ∧ t.moves = s.moves

/-- R35, the "r" entries: two unlatched states (with the same open parameters) that agree in the columns a command
reads get the same fault from it, or the same new contents of every column it writes. -/
def Obligations.ReadsAreTheTabulated : Prop :=
  ∀ (i : Instr) (s s' t t' : State), s.err = false → s'.err = false → s'.params = s.params →
    (∀ p ∈ reads i, Part.same s s' p) → exec i s = .next t → exec i s' = .next t' →
    t'.err = t.err ∧ (t.err = true → t'.ecode = t.ecode ∧ t'.epos = t.epos)
    ∧ (t.err = false → ∀ p ∈ writes i, Part.same t t' p)

/-- R59: these commands, executed twice in a row, leave the same state as once, apart from `CP`. -/
def Obligations.RepeatedCommandsAreIdempotent : Prop :=
  ∀ (i : Instr) (s t : State), idempotent i = true → exec i s = .next t →
    exec i t = .next { t with cp := t.cp + 1 }

/-- R22: the bytes SQZ emits while no permutation is needed depend on the rate part `S[0..136)` alone, and HASH, SEL and their
`.X` forms depend on no lane at all: the capacity is never copied out. -/
def Obligations.CapacityIsNotCopiedOut : Prop :=
  (∀ (s : State) (n : BitVec 16) (a : Lanes) (t t' : State), s.err = false → s.spos + n.toNat ≤ 136 →
      (∀ k < 136, stateByte a k = stateByte s.lanes k) →
      exec (.sqz n) s = .next t → exec (.sqz n) { s with lanes := a } = .next t' → t'.obuf = t.obuf)
  ∧ ∀ (s : State) (i : Instr) (a : Lanes) (p : Nat), s.err = false → i ∈ [.hash, .hashX, .sel, .selX] →
      exec i { s with lanes := a, spos := p } = exec i s

/-! ### Buffer and control commands -/

/-- R210: NOP changes `CP` only. -/
def Obligations.NopChangesCpOnly : Prop :=
  encode .nop = 0x00000000 ∧ ∀ s : State, exec .nop s = .next { s with cp := s.cp + 1 }

/-- R212: ICLR empties the input buffer. -/
def Obligations.IclrEmptiesTheInputBuffer : Prop :=
  encode .iclr = 0x02000000 ∧ ∀ s : State, s.err = false → exec .iclr s = .next { s with ibuf := [], cp := s.cp + 1 }

/-- R213: IPUT appends one byte, or raises CapacityFault when `ILEN = BUF_CAP`. -/
def Obligations.IputAppendsOneByte : Prop :=
  ∀ (b : BitVec 8) (s : State), encode (.iput b) = 0x03000000 ||| b.setWidth 32
    ∧ (s.err = false → s.params.bufCap ≠ some s.ibuf.length →
        exec (.iput b) s = .next { s with ibuf := s.ibuf ++ [b], cp := s.cp + 1 })
    ∧ (s.err = false → s.params.bufCap = some s.ibuf.length →
        exec (.iput b) s = .next { s with
          err := true, ecode := 9, epos := 0, ecmd := 0x03000000 ||| b.setWidth 32, ecp := s.cp, cp := s.cp + 1 })

/-- R214: XFER copies the output buffer without its first `k` bytes, or raises RangeFault when `k > OLEN`. -/
def Obligations.XferMovesTheOutputTail : Prop :=
  ∀ (k : BitVec 16) (s : State), encode (.xfer k) = 0x04000000 ||| k.setWidth 32
    ∧ (s.err = false → k.toNat ≤ s.obuf.length → ∃ t, exec (.xfer k) s = .next t
        ∧ t = { s with ibuf := t.ibuf, cp := s.cp + 1 } ∧ t.ibuf.length = s.obuf.length - k.toNat
        ∧ ∀ m, t.ibuf[m]? = s.obuf[k.toNat + m]?)
    ∧ (s.err = false → s.obuf.length < k.toNat →
        exec (.xfer k) s = .next { s with
          err := true, ecode := 10, epos := 0, ecmd := 0x04000000 ||| k.setWidth 32, ecp := s.cp, cp := s.cp + 1 })

/-! ### The permutation engine -/

/-- R12, R108: `rol64` moves bit `k` to bit `k + n` modulo 64; an amount is taken modulo 64. -/
def Obligations.RotationMovesEveryBit : Prop :=
  ∀ (v : Lane) (n k : Nat), k < 64 → (rol64 v n).getLsbD ((k + n) % 64) = v.getLsbD k

/-- R102: theta, with column `x` the lanes `A[x]`, `A[x+5]`, `A[x+10]`, `A[x+15]`, `A[x+20]`. -/
def Obligations.ThetaXorsColumnParities : Prop :=
  ∀ a : Lanes,
    let c := fun x : Fin 5 => a[x.val] ^^^ a[x.val + 5] ^^^ a[x.val + 10] ^^^ a[x.val + 15] ^^^ a[x.val + 20]
    ∀ (x y : Fin 5), (theta a)[x.val + 5 * y.val] = a[x.val + 5 * y.val] ^^^ (c (x + 4) ^^^ rol64 (c (x + 1)) 1)

/-- R103: the lane at `(x, y)`, rotated by `ROT[x][y]`, lands at `(y, 2x+3y mod 5)`, and every lane of the result comes
from exactly one position. -/
def Obligations.RhoPiRelocatesEveryLane : Prop :=
  (∀ (a : Lanes) (x y : Fin 5),
      (rhopi a)[y.val + 5 * (2 * x + 3 * y : Fin 5).val] = rol64 a[x.val + 5 * y.val] rotations[x.val + 5 * y.val])
  ∧ ∀ d : Fin 25, ∃ q : Fin 5 × Fin 5, q.2.val + 5 * (2 * q.1 + 3 * q.2 : Fin 5).val = d.val
      ∧ ∀ q' : Fin 5 × Fin 5, q'.2.val + 5 * (2 * q'.1 + 3 * q'.2 : Fin 5).val = d.val → q' = q

/-- R104, R105: chi acts on rows with the two next lanes; iota changes lane 0 only. -/
def Obligations.ChiAndIotaActAsStated : Prop :=
  (∀ (b : Lanes) (x y : Fin 5),
      (chi b)[x.val + 5 * y.val] =
        b[x.val + 5 * y.val] ^^^ ((~~~ b[(x + 1).val + 5 * y.val]) &&& b[(x + 2).val + 5 * y.val]))
  ∧ ∀ (e : Lanes) (r : Fin 24), (iota e r)[0] = e[0] ^^^ roundConstants[r]
      ∧ ∀ i : Fin 25, i ≠ 0 → (iota e r)[i] = e[i]

/-- R109: PCLR zeroes the lanes and `SPOS`. -/
def Obligations.PclrClearsTheState : Prop :=
  encode .pclr = 0x10000000 ∧ ∀ s : State, s.err = false → ∃ t, exec .pclr s = .next t
    ∧ t = { s with lanes := t.lanes, spos := 0, cp := s.cp + 1 } ∧ ∀ i : Fin 25, t.lanes[i] = 0

/-- R110, R106, R74: PRND applies theta, rho+pi, chi, iota in that order with its own round constant and keeps `SPOS`; a round
index above 23 is an illegal word. -/
def Obligations.PrndAppliesOneRound : Prop :=
  ∀ (r : BitVec 5) (s : State), encode (.prnd r) = 0x11000000 ||| r.setWidth 32
    ∧ (∀ h : r.toNat < 24, s.err = false → exec (.prnd r) s = .next { s with
        lanes := iota (chi (rhopi (theta s.lanes))) ⟨r.toNat, h⟩, cp := s.cp + 1 })
    ∧ (24 ≤ r.toNat → decode (encode (.prnd r)) = none)

/-- R111, R107, R110: PERM completes, keeps `SPOS`, and its lanes are those of the 24 commands PRND 0, PRND 1, ..., PRND 23. -/
def Obligations.PermIsTheAscendingRounds : Prop :=
  encode .perm = 0x12000000 ∧ ∀ s : State, s.err = false → ∃ t u, exec .perm s = .next t
    ∧ execAll ((List.range 24).map fun r => .prnd (BitVec.ofNat 5 r)) s = .next u
    ∧ t = { s with lanes := u.lanes, cp := s.cp + 1 } ∧ u = { s with lanes := u.lanes, cp := s.cp + 24 }

/-! ### The sponge controller -/

/-- R120: the padded message begins with the message, is the least multiple of 136 longer than it, has `0x01` after the message
(`0x81` where that is the last byte), `0x80` at the end and zeros between. -/
def Obligations.PaddingShape : Prop :=
  ∀ m : List Byte,
    (pad m).length = 136 * (m.length / 136 + 1)
    ∧ (pad m).take m.length = m
    ∧ (m.length % 136 = 135 → (pad m).drop m.length = [0x81])
    ∧ (m.length % 136 ≠ 135 →
        (pad m).drop m.length = 0x01 :: List.replicate (134 - m.length % 136) 0x00 ++ [0x80])

/-- R121: absorbing a block XORs its 136 bytes into the state bytes `S[0..136)`, leaves the others, and then permutes once. -/
def Obligations.AbsorbXorsTheRatePart : Prop :=
  ∀ (a : Lanes) (blk : List Byte), blk.length = 136 → ∃ b : Lanes, absorbBlock a blk = keccakF b
    ∧ (∀ k (h : k < blk.length), stateByte b k = stateByte a k ^^^ blk[k])
    ∧ ∀ k, 136 ≤ k → k < 200 → stateByte b k = stateByte a k

/-- R123, R127, R270: byte `k` of a squeeze from position `spos` is state byte `(spos + k) mod 136` of the state permuted
`(spos + k) div 136` times, the state is left permuted `(spos + n - 1) div 136` times (not at all for `n = 0`), and the
position is one past the last byte emitted. -/
def Obligations.SqueezeEmitsTheOutputStream : Prop :=
  ∀ (a : Lanes) (spos n : Nat), spos ≤ 136 →
    (squeeze a spos n).out.length = n
    ∧ (∀ k, k < n → (squeeze a spos n).out[k]? =
        some (stateByte (keccakF^[(spos + k) / 136] a) ((spos + k) % 136)))
    ∧ (squeeze a spos n).lanes = keccakF^[squeezePerms spos n] a
    ∧ (squeeze a spos n).spos = (if n = 0 then spos else (spos + n - 1) % 136 + 1)

/-- R126: ABS absorbs the padded input buffer, block by block, into the current state and sets `SPOS` to 0. -/
def Obligations.AbsAbsorbsTheInputBuffer : Prop :=
  encode .abs = 0x20000000 ∧ ∀ s : State, s.err = false → exec .abs s = .next { s with
    lanes := (List.range (s.ibuf.length / 136 + 1)).foldl
      (fun a k => absorbBlock a (((pad s.ibuf).drop (136 * k)).take 136)) s.lanes
    spos := 0, cp := s.cp + 1 }

/-- R127: SQZ replaces `OBUF`, the lanes and `SPOS` by what the squeeze gives, or raises CapacityFault when
`n > BUF_CAP`. -/
def Obligations.SqzEmitsOrFaults : Prop :=
  ∀ (n : BitVec 16) (s : State), encode (.sqz n) = 0x21000000 ||| n.setWidth 32
    ∧ (s.err = false → s.params.bufFits n.toNat = true → exec (.sqz n) s = .next { s with
        lanes := (squeeze s.lanes s.spos n.toNat).lanes, spos := (squeeze s.lanes s.spos n.toNat).spos
        obuf := (squeeze s.lanes s.spos n.toNat).out, cp := s.cp + 1 })
    ∧ (s.err = false → s.params.bufFits n.toNat = false → exec (.sqz n) s = .next { s with
        err := true, ecode := 9, epos := 0, ecmd := 0x21000000 ||| n.setWidth 32, ecp := s.cp, cp := s.cp + 1 })

/-- R127: two successive SQZ commands continue one output stream. -/
def Obligations.SuccessiveSqueezesContinueTheStream : Prop :=
  ∀ (s : State) (m n mn : BitVec 16), s.err = false → mn.toNat = m.toNat + n.toNat → s.params.bufFits mn.toNat = true →
    ∃ t u v, exec (.sqz m) s = .next t ∧ exec (.sqz n) t = .next u ∧ exec (.sqz mn) s = .next v
      ∧ v.obuf = t.obuf ++ u.obuf ∧ v.lanes = u.lanes ∧ v.spos = u.spos

/-- R124: the digest is lanes 0 to 3 of the absorbed state, little-endian, 32 bytes. -/
def Obligations.DigestIsTheFirstFourLanes : Prop :=
  ∀ m : List Byte, (keccak256 m).length = 32
    ∧ keccak256 m = lebytes64 (hashLanes m)[0] ++ lebytes64 (hashLanes m)[1] ++ lebytes64 (hashLanes m)[2]
        ++ lebytes64 (hashLanes m)[3]

/-- R128, R129, R122: HASH absorbs the padded input buffer from the all-zero state, leaves `SPOS = 32` and the digest in `OBUF`;
HASH.X does the same with the digest as lowercase hex text. -/
def Obligations.HashLeavesTheDigest : Prop :=
  encode .hash = 0x22000000 ∧ encode .hashX = 0x22800000 ∧ ∀ s : State, s.err = false →
    exec .hash s = .next { s with
      lanes := absorb (Vector.replicate 25 0) (pad s.ibuf), spos := 32, obuf := keccak256 s.ibuf, cp := s.cp + 1 }
    ∧ exec .hashX s = .next { s with
      lanes := absorb (Vector.replicate 25 0) (pad s.ibuf), spos := 32, obuf := hex0x (keccak256 s.ibuf), cp := s.cp + 1 }

/-- R128: HASH has the same effect as PCLR, ABS, SQZ 32. -/
def Obligations.HashIsPclrAbsSqz : Prop :=
  ∀ s : State, s.err = false → s.params.legal = true → ∃ t u, exec .hash s = .next t
    ∧ execAll [.pclr, .abs, .sqz 32] s = .next u ∧ t = { u with cp := s.cp + 1 }

/-! ### Descriptor and staging -/

/-- R150, R149: SEL hashes the input buffer as HASH does, puts the first four digest bytes into `SELR` and `OBUF` and sets
`SELV`; SEL.X writes them as hex text. -/
def Obligations.SelDerivesTheSelector : Prop :=
  encode .sel = 0x30000000 ∧ encode .selX = 0x30800000 ∧ ∀ s : State, s.err = false → ∃ t u,
    exec .sel s = .next t ∧ exec .selX s = .next u
    ∧ t = { s with
        lanes := absorb (Vector.replicate 25 0) (pad s.ibuf), spos := 32, selr := t.selr, selv := true
        obuf := (keccak256 s.ibuf).take 4, cp := s.cp + 1 }
    ∧ t.selr.toList = (keccak256 s.ibuf).take 4
    ∧ u = { t with obuf := hex0x ((keccak256 s.ibuf).take 4) }

/-- R151: DCLR empties both type lists and clears the selector; the staged arguments and results stay. -/
def Obligations.DclrClearsTheDescriptor : Prop :=
  encode .dclr = 0x31000000 ∧ ∀ s : State, s.err = false → ∃ t, exec .dclr s = .next t
    ∧ t = { s with selr := t.selr, selv := false, ityp := [], otyp := [], cp := s.cp + 1 }
    ∧ t.selr.toList = [0, 0, 0, 0]

/-- R152, R153, R75: TIN and TOUT append any tag to their list, or raise CapacityFault when it holds `LIST_CAP` entries. -/
def Obligations.TypeTagsAreAppended : Prop :=
  ∀ (t : BitVec 8) (s : State), encode (.tin t) = 0x32000000 ||| t.setWidth 32 ∧ encode (.tout t) = 0x33000000 ||| t.setWidth 32
    ∧ (s.err = false → s.ityp.length ≠ s.params.listCap →
        exec (.tin t) s = .next { s with ityp := s.ityp ++ [t], cp := s.cp + 1 })
    ∧ (s.err = false → s.ityp.length = s.params.listCap →
        exec (.tin t) s = .next { s with
          err := true, ecode := 9, epos := 0, ecmd := 0x32000000 ||| t.setWidth 32, ecp := s.cp, cp := s.cp + 1 })
    ∧ (s.err = false → s.otyp.length ≠ s.params.listCap →
        exec (.tout t) s = .next { s with otyp := s.otyp ++ [t], cp := s.cp + 1 })
    ∧ (s.err = false → s.otyp.length = s.params.listCap →
        exec (.tout t) s = .next { s with
          err := true, ecode := 9, epos := 0, ecmd := 0x33000000 ||| t.setWidth 32, ecp := s.cp, cp := s.cp + 1 })

/-- R154, R155: ACLR empties the argument list; APUSH stages a copy of the input buffer, or raises CapacityFault when the list
holds `LIST_CAP` entries. -/
def Obligations.ArgumentsAreStaged : Prop :=
  encode .aclr = 0x34000000 ∧ encode .apush = 0x35000000 ∧ ∀ s : State, s.err = false →
    exec .aclr s = .next { s with argv := [], cp := s.cp + 1 }
    ∧ (s.argv.length ≠ s.params.listCap → exec .apush s = .next { s with argv := s.argv ++ [s.ibuf], cp := s.cp + 1 })
    ∧ (s.argv.length = s.params.listCap → exec .apush s = .next { s with
        err := true, ecode := 9, epos := 0, ecmd := 0x35000000, ecp := s.cp, cp := s.cp + 1 })

/-! ### The codec -/

/-- R12, R53, R141: `word(v)` is 32 bytes that read back big-endian as `v`, for every `v < 2^256`, and raises OverflowError
from 2^256 on. -/
def Obligations.WordsReadBack : Prop :=
  ∀ v pos : Nat, (v < 2 ^ 256 → ∃ w, word v pos = .ok w ∧ w.length = 32 ∧ be w = v)
    ∧ (2 ^ 256 ≤ v → word v pos = .error ⟨.overflowError, pos⟩)

/-- R143, R144: reading rendered bytes back as hex text gives them again, with the prefix and without it, by the same `unhex`
that DEC.X reads with; and the rendering has two digits a byte. -/
def Obligations.HexTextReadsBack : Prop :=
  ∀ b : List Byte, unhex (hex0x b) = some b ∧ unhex ((hex0x b).drop 2) = some b
    ∧ (hex0x b).length = 2 + 2 * b.length

/-- R170, R156, R157, R172, R180: with a selector, matching counts and acceptable arguments, ENC writes
`selector ‖ head ‖ tail` with every dynamic head word the offset of its tail segment, and ENC.X its hex text, when that
fits the buffer; when it is longer than `BUF_CAP` they raise CapacityFault (R181 part 4, R224). Nothing else changes. -/
def Obligations.EncWritesTheCallPayload : Prop :=
  encode .enc = 0x40000000 ∧ encode .encX = 0x40800000 ∧ ∀ s : State,
    s.err = false → s.selv = true → argumentsAcceptable s = true → (callPayload s).length < 2 ^ 256 →
      (s.params.bufFits (callPayload s).length = true →
        exec .enc s = .next { s with obuf := callPayload s, cp := s.cp + 1 })
      ∧ (s.params.bufFits (hex0x (callPayload s)).length = true →
        exec .encX s = .next { s with obuf := hex0x (callPayload s), cp := s.cp + 1 })
      ∧ (s.params.bufFits (callPayload s).length = false →
        exec .enc s = .next { s with
          err := true, ecode := 9, epos := 0, ecmd := 0x40000000, ecp := s.cp, cp := s.cp + 1 })
      ∧ (s.params.bufFits (hex0x (callPayload s)).length = false →
        exec .encX s = .next { s with
          err := true, ecode := 9, epos := 0, ecmd := 0x40800000, ecp := s.cp, cp := s.cp + 1 })

/-- R182: the payload's length is `4 + 32 NIN + len(tail)` with a tail of a multiple of 32 bytes, so exactly `4 + 32 NIN` when
every input is static. -/
def Obligations.EncPayloadLength : Prop :=
  ∀ s t : State, s.err = false → exec .enc s = .next t → t.err = false →
    t.obuf.length = 4 + 32 * s.ityp.length + (tailSegments s).flatten.length
    ∧ (tailSegments s).flatten.length % 32 = 0
    ∧ ((∀ tag ∈ s.ityp, (typeOfTag tag).isStatic = true) → t.obuf.length = 4 + 32 * s.ityp.length)

/-- R171, R181: no selector raises SequenceFault; then a wrong count raises ArityError before any argument is looked at. -/
def Obligations.EncChecksSelectorThenArity : Prop :=
  ∀ (s : State) (i : Instr), i = .enc ∨ i = .encX → s.err = false →
    (s.selv = false → exec i s = .next { s with
      err := true, ecode := 11, epos := 0, ecmd := encode i, ecp := s.cp, cp := s.cp + 1 })
    ∧ (s.selv = true → s.argv.length ≠ s.ityp.length → exec i s = .next { s with
      err := true, ecode := 1, epos := 0, ecmd := encode i, ecp := s.cp, cp := s.cp + 1 })

/-- R181, R173 to R179: the first argument that is not acceptable for its declared type, in order, decides the fault: the code of
its type's row (R146), its index in `EPOS`. -/
def Obligations.EncReportsTheFirstBadArgument : Prop :=
  ∀ (s : State) (i : Instr) (n : Nat), i = .enc ∨ i = .encX → s.err = false → s.selv = true →
    s.argv.length = s.ityp.length → 32 * s.ityp.length + (tailSegments s).flatten.length < 2 ^ 256 →
    ∀ (hi : n < s.ityp.length) (ha : n < s.argv.length),
      (∀ m (hm : m < s.ityp.length) (hm' : m < s.argv.length), m < n →
        acceptable (typeOfTag s.ityp[m]) s.argv[m] = true) →
      acceptable (typeOfTag s.ityp[n]) s.argv[n] = false →
      exec i s = .next { s with
        err := true, ecode := operandFaultCode (typeOfTag s.ityp[n]), epos := BitVec.ofNat 16 n
        ecmd := encode i, ecp := s.cp, cp := s.cp + 1 }

/-- R192, R204: the empty payload decodes to no results whatever is declared, for DEC with `ILEN = 0` and for DEC.X with
`""` and `"0x"`. -/
def Obligations.EmptyPayloadDecodesToNothing : Prop :=
  ∀ s : State, s.err = false →
    (s.ibuf = [] → exec .dec s = .next { s with resv := [], cp := s.cp + 1 })
    ∧ (s.ibuf = [] ∨ s.ibuf = [0x30, 0x78] → exec .decX s = .next { s with resv := [], cp := s.cp + 1 })

/-- R190, R193 to R199, R205: a non-empty payload that holds every range the declared outputs need decodes to their results, in
order; DEC.X does so for the payload its text denotes. -/
def Obligations.DecStagesEveryResult : Prop :=
  ∀ (s : State) (p : List Byte), s.err = false → p ≠ [] →
    (∀ j (hj : j < s.otyp.length), outputReadable s.params p j (typeOfTag s.otyp[j]) = true) →
    let results := s.otyp.zipIdx.map fun (tag, j) => resultOf p j (typeOfTag tag)
    (s.ibuf = p → exec .dec s = .next { s with resv := results, cp := s.cp + 1 })
    ∧ (unhex s.ibuf = some p → exec .decX s = .next { s with resv := results, cp := s.cp + 1 })

/-- R191, R193, R201, R202, R224: the first output that does not decode, in order, decides DEC's fault: TruncatedDataError when its
head word or, for a type of the catalogue, a range behind its offset is outside the payload; else UnsupportedTypeError; else
CapacityFault with position 0. -/
def Obligations.DecReportsTheFirstBadOutput : Prop :=
  ∀ (s : State) (j : Nat), s.err = false → s.ibuf ≠ [] → ∀ hj : j < s.otyp.length,
    (∀ m (hm : m < s.otyp.length), m < j → outputReadable s.params s.ibuf m (typeOfTag s.otyp[m]) = true) →
    outputReadable s.params s.ibuf j (typeOfTag s.otyp[j]) = false →
    exec .dec s = .next { s with
      err := true
      ecode := (if rangesInside s.ibuf j (typeOfTag s.otyp[j]) = false then 6
        else if supported (typeOfTag s.otyp[j]) = false then 5 else 9)
      epos := (if rangesInside s.ibuf j (typeOfTag s.otyp[j]) = false ∨ supported (typeOfTag s.otyp[j]) = false
        then BitVec.ofNat 16 j else 0)
      ecmd := 0x50000000, ecp := s.cp, cp := s.cp + 1 }

/-- R204: DEC.X on malformed text raises OperandFault with position 0; on well-formed text it stages the results, or raises the
fault, that DEC gives for the payload the text denotes. -/
def Obligations.DecXReadsHexText : Prop :=
  ∀ s : State, s.err = false →
    (unhex s.ibuf = none → exec .decX s = .next { s with
      err := true, ecode := 12, epos := 0, ecmd := 0x50800000, ecp := s.cp, cp := s.cp + 1 })
    ∧ ∀ p, unhex s.ibuf = some p → ∃ t u, exec .dec { s with ibuf := p } = .next t ∧ exec .decX s = .next u
      ∧ u.resv = t.resv ∧ u.err = t.err ∧ u.ecode = t.ecode ∧ u.epos = t.epos ∧ u.ibuf = s.ibuf

/-- R200: RGET copies a staged result to `OBUF`, or raises RangeFault when `j ≥ NRES`. -/
def Obligations.RgetCopiesAResult : Prop :=
  ∀ (j : BitVec 16) (s : State), encode (.rget j) = 0x51000000 ||| j.setWidth 32
    ∧ (s.err = false → ∀ h : j.toNat < s.resv.length,
        exec (.rget j) s = .next { s with obuf := s.resv[j.toNat], cp := s.cp + 1 })
    ∧ (s.err = false → s.resv.length ≤ j.toNat → exec (.rget j) s = .next { s with
        err := true, ecode := 10, epos := 0, ecmd := 0x51000000 ||| j.setWidth 32, ecp := s.cp, cp := s.cp + 1 })

/-- R148: what ENC encodes, DEC decodes: when ENC succeeds, XFER 4 and DEC with `OTYP = ITYP` give, in order, the canonical form of
every staged argument. The premise on the canonical forms' lengths is R224's: a text longer than `BUF_CAP` is the one
way DEC can still fault. -/
def Obligations.DecodeOfEncodeIsCanonical : Prop :=
  ∀ s t : State, s.err = false → s.otyp = s.ityp → exec .enc s = .next t → t.err = false →
    (∀ m (hi : m < s.ityp.length) (ha : m < s.argv.length),
      s.params.bufFits (canon (typeOfTag s.ityp[m]) s.argv[m]).length = true) →
    ∃ u v, exec (.xfer 4) t = .next u ∧ exec .dec u = .next v ∧ v.err = false
      ∧ v.resv = (s.ityp.zip s.argv).map fun (tag, a) => canon (typeOfTag tag) a
end

