-- ==== Sys2Proof/Laws/Bytes.lean ====
section
/-! SUPPORT. Laws of byte strings, words, hex digits and the buffer primitives (R12, R141 to R144). -/

namespace Sys2Proof.Machine

/-! ### slice, zeros, ceil32 -/

theorem length_slice {b : List Byte} {o n : Nat} (h : o + n ≤ b.length) : (slice b o n).length = n := by
  simp [slice]; omega

theorem slice_append_right (a b : List Byte) (o n : Nat) : slice (a ++ b) (a.length + o) n = slice b o n := by
  have : (a.drop (a.length + o)) = [] := List.drop_eq_nil_of_le (by omega)
  simp [slice, List.drop_append, this]

theorem slice_append_left {a : List Byte} {o n : Nat} (b : List Byte) (h : o + n ≤ a.length) :
    slice (a ++ b) o n = slice a o n := by
  have : n - (a.length - o) = 0 := by omega
  simp [slice, List.drop_append, List.take_append, this]

theorem slice_all (a : List Byte) : slice a 0 a.length = a := by simp [slice]

/-- A slice that is exactly the middle part of a concatenation. -/
theorem slice_middle (a b c : List Byte) : slice (a ++ (b ++ c)) a.length b.length = b := by
  simp [slice]

theorem slice_slice {b : List Byte} {o n k m : Nat} (h : k + m ≤ n) : slice (slice b o n) k m = slice b (o + k) m := by
  have : min m (n - k) = m := by omega
  simp [slice, List.drop_take, List.take_take, this]

@[simp] theorem length_zeros (n : Nat) : (zeros n).length = n := by simp [zeros]

theorem le_ceil32 (n : Nat) : n ≤ ceil32 n := by unfold ceil32; omega

theorem ceil32_mod (n : Nat) : ceil32 n % 32 = 0 := by unfold ceil32; omega

/-! ### memRead and memWrite (R12) -/

theorem memRead_eq_some_iff {b v : List Byte} {o n : Nat} :
    memRead b o n = some v ↔ o + n ≤ b.length ∧ slice b o n = v := by
  unfold memRead; split <;> simp_all

theorem memRead_eq_none_iff {b : List Byte} {o n : Nat} : memRead b o n = none ↔ b.length < o + n := by
  unfold memRead; split <;> simp_all

theorem length_memWrite {b v r : List Byte} {o : Nat} (h : memWrite b o v = some r) : r.length = b.length := by
  unfold memWrite at h
  split at h
  · cases h; simp; omega
  · cases h

/-- A read of the bytes just written gives them. -/
theorem memRead_memWrite_same {b v r : List Byte} {o : Nat} (h : memWrite b o v = some r) :
    memRead r o v.length = some v := by
  have hl := length_memWrite h
  unfold memWrite at h
  split at h
  · rename_i hle
    cases h
    rw [memRead_eq_some_iff]
    refine ⟨by omega, ?_⟩
    have : min o b.length = o := by omega
    have hs := slice_middle (b.take o) v (b.drop (o + v.length))
    simpa [this] using hs
  · cases h

/-- A write leaves every byte outside it alone. -/
theorem getElem?_memWrite_other {b v r : List Byte} {o k : Nat} (h : memWrite b o v = some r)
    (hk : k < o ∨ o + v.length ≤ k) : r[k]? = b[k]? := by
  unfold memWrite at h
  split at h
  · rename_i hle
    cases h
    rcases hk with hk | hk
    · rw [List.append_assoc, List.getElem?_append_left (by simp; omega), List.getElem?_take_of_lt hk]
    · rw [List.getElem?_append_right (by simp; omega), List.getElem?_drop]
      congr 1
      simp
      omega
  · cases h

/-! ### Words (R12, R141) -/

@[simp] theorem length_wordBytes (v : Nat) : (wordBytes v).length = 32 := by simp [wordBytes]

@[simp] theorem length_lebytes64 (v : Lane) : (lebytes64 v).length = 8 := by simp [lebytes64]

/-- The accumulator form of `be`, one byte at a time from the end. -/
theorem be_append_single (b : List Byte) (x : Byte) : be (b ++ [x]) = be b * 256 + x.toNat := by
  simp [be]

theorem be_lt (b : List Byte) : be b < 256 ^ b.length := by
  induction b using List.reverseRecOn with
  | nil => simp [be]
  | append_singleton b x ih =>
    have := x.isLt
    rw [be_append_single, List.length_append, List.length_singleton, Nat.pow_succ]
    omega

theorem word_ok_iff {v pos : Nat} {w : List Byte} :
    word v pos = .ok w ↔ v < Config.wordLimit ∧ w = wordBytes v := by
  unfold word; split <;> simp_all [eq_comm]

/-! ### Hex digits (R142, R143) -/

theorem hexVal_hexDigit : ∀ n, n < 16 → hexVal (hexDigit n) = some n := by decide

theorem hexVal_lt {c : Byte} {n : Nat} (h : hexVal c = some n) : n < 16 := by
  unfold hexVal at h
  dsimp only at h
  split at h
  · cases h; omega
  · split at h
    · cases h; omega
    · split at h
      · cases h; omega
      · cases h

theorem length_hexDigits (b : List Byte) : (hexDigits b).length = 2 * b.length := by
  induction b with
  | nil => rfl
  | cons x xs ih => simp [hexDigits, ih]; omega

theorem length_hex0x (b : List Byte) : (hex0x b).length = 2 + 2 * b.length := by
  simp [hex0x, length_hexDigits]; omega

@[simp] theorem strip0x_hex0x (b : List Byte) : strip0x (hex0x b) = hexDigits b := by
  simp [hex0x, strip0x]

theorem hexDigit_ne_x : ∀ n, n < 16 → hexDigit n ≠ 0x78 := by decide

/-- Hex digits never begin with a prefix (R144). -/
@[simp] theorem strip0x_hexDigits (b : List Byte) : strip0x (hexDigits b) = hexDigits b := by
  cases b with
  | nil => rfl
  | cons x xs =>
    simp only [hexDigits, strip0x, ite_eq_right_iff]
    exact fun h => absurd h.2 (hexDigit_ne_x _ (Nat.mod_lt _ (by decide)))

theorem length_of_unhexDigits : ∀ {t b : List Byte}, unhexDigits t = some b → t.length = 2 * b.length
  | [], b, h => by simp_all [unhexDigits]
  | [_], b, h => by simp [unhexDigits] at h
  | c0 :: c1 :: rest, b, h => by
    unfold unhexDigits at h
    split at h
    · rename_i hb
      cases h
      have := length_of_unhexDigits hb
      simp
      omega
    · cases h

theorem unhexExact_eq_some_iff {n : Nat} {t b : List Byte} :
    unhexExact n t = some b ↔ (strip0x t).length = n ∧ unhex t = some b := by
  unfold unhexExact unhex; split <;> simp_all

/-! ### Capacities (R9, R224) -/

theorem Params.bufFits_mono {p : Params} {m n : Nat} (h : m ≤ n) (hn : p.bufFits n = true) : p.bufFits m = true := by
  unfold Params.bufFits at *
  split at hn
  · simp_all
  · simp_all; omega

end Sys2Proof.Machine
end

