-- ==== Sys2Proof/Laws/Codec.lean ====
section
/-! SUPPORT. Laws of the codec's loops and reads (R170 to R206). -/

namespace Sys2Proof.Machine

/-! ### Reads of the payload -/

theorem rd_ok_iff {p v : List Byte} {o n j : Nat} : rd p o n j = .ok v ↔ o + n ≤ p.length ∧ slice p o n = v := by
  unfold rd
  cases h : memRead p o n with
  | none => simp [memRead_eq_none_iff] at h; simp; omega
  | some b => simp [memRead_eq_some_iff] at h; simp [h]

theorem rd_error_iff {p : List Byte} {o n j : Nat} {e : Raise} :
    rd p o n j = .error e ↔ p.length < o + n ∧ e = ⟨.truncatedDataError, j⟩ := by
  unfold rd
  cases h : memRead p o n with
  | none => simp [memRead_eq_none_iff] at h; simp [h, eq_comm]
  | some b => simp [memRead_eq_some_iff] at h; simp; omega

/-- Everything a length-prefixed read can give. -/
theorem rdCounted_ok_iff {p : List Byte} {o u j : Nat} {r : Nat × List Byte} :
    rdCounted p o u j = .ok r ↔ o + 32 ≤ p.length ∧ o + 32 + u * be (slice p o 32) ≤ p.length
      ∧ r = (be (slice p o 32), slice p (o + 32) (u * be (slice p o 32))) := by
  unfold rdCounted
  split
  · rename_i h
    rw [rd_error_iff] at h
    simp
    omega
  · rename_i lw h
    obtain ⟨h1, rfl⟩ := rd_ok_iff.mp h
    split
    · rename_i h2
      rw [rd_error_iff] at h2
      simp
      omega
    · rename_i body h2
      obtain ⟨h3, rfl⟩ := rd_ok_iff.mp h2
      simp [h1, h3, eq_comm]

theorem rdCounted_error_iff {p : List Byte} {o u j : Nat} {e : Raise} :
    rdCounted p o u j = .error e ↔ (p.length < o + 32 ∨ p.length < o + 32 + u * be (slice p o 32))
      ∧ e = ⟨.truncatedDataError, j⟩ := by
  unfold rdCounted
  split
  · rename_i h
    rw [rd_error_iff] at h
    simp [h.2, eq_comm, h.1]
  · rename_i lw h
    obtain ⟨h1, rfl⟩ := rd_ok_iff.mp h
    split
    · rename_i h2
      rw [rd_error_iff] at h2
      simp [h2.2, eq_comm, h2.1]
    · rename_i body h2
      obtain ⟨h3, rfl⟩ := rd_ok_iff.mp h2
      simp
      omega

/-! ### The loops -/

/-- A successful decode gives one result for each declared output. -/
theorem length_decOutputs {par : Params} {p : List Byte} {j : Nat} {tags : List Byte} {vs : List (List Byte)}
    (h : decOutputs par p j tags = .ok vs) : vs.length = tags.length := by
  induction tags generalizing j vs with
  | nil => cases h; rfl
  | cons t ts ih =>
    unfold decOutputs at h
    split at h
    · cases h
    · split at h
      · cases h
      · rename_i hv; cases h; simp [ih hv]

/-- Every result of a successful decode fits a buffer (R190). -/
theorem fits_of_decOutputs {par : Params} {p : List Byte} {j : Nat} {tags : List Byte} {vs : List (List Byte)}
    (h : decOutputs par p j tags = .ok vs) : ∀ v ∈ vs, par.bufFits v.length = true := by
  induction tags generalizing j vs with
  | nil => cases h; simp
  | cons t ts ih =>
    unfold decOutputs at h
    split at h
    · cases h
    · rename_i v hv
      split at h
      · cases h
      · rename_i hvs
        cases h
        intro x hx
        rcases List.mem_cons.mp hx with rfl | hx
        · unfold decOutput at hv
          split at hv
          · cases hv
          · split at hv
            · cases hv
            · split at hv
              · rename_i hf; cases hv; exact hf
              · cases hv
        · exact ih hvs x hx

/-- One step of the encoder's loop that succeeds. -/
theorem encArgs_cons_ok_iff {i off : Nat} {t : Byte} {ts a : List Byte} {as : List (List Byte)} {r : List Byte × List Byte} :
    encArgs i off (t :: ts) (a :: as) = .ok r ↔
      ∃ seg q, encArg (typeOfTag t) a i off = .ok seg ∧ encArgs (i + 1) (off + seg.advance) ts as = .ok q
        ∧ r = (seg.head ++ q.1, seg.tail ++ q.2) := by
  rw [encArgs]
  split
  · simp_all
  · rename_i seg hseg
    split
    · simp_all
    · rename_i q1 q2 hq
      simp [hseg, hq, eq_comm]

theorem encAddr_ok_iff {a w : List Byte} {i : Nat} :
    encAddr a i = .ok w ↔ ∃ b, unhexExact 40 a = some b ∧ w = zeros 12 ++ b := by
  unfold encAddr; cases unhexExact 40 a <;> simp [eq_comm]

theorem encB32_ok_iff {a w : List Byte} {i : Nat} : encB32 a i = .ok w ↔ unhexExact 64 a = some w := by
  unfold encB32; cases unhexExact 64 a <;> simp

end Sys2Proof.Machine
end

