-- ==== Sys2Proof/Laws/Keccak.lean ====
section
/-! SUPPORT. Laws of the lanes, the padding and the squeeze (R22, R102 to R107, R120 to R124). -/

namespace Sys2Proof.Machine

/-! ### Lanes of the step mappings -/

theorem getElem_chi (b : Lanes) (i : Nat) (h : i < 25) :
    (chi b)[i] = laneAt b (i % 5) (i / 5) ^^^ (~~~ (laneAt b (i % 5 + 1) (i / 5)) &&& laneAt b (i % 5 + 2) (i / 5)) := by
  simp [chi]

theorem getElem_rhopi (a : Lanes) (i : Nat) (h : i < 25) :
    (rhopi a)[i] = rol64 (laneAt a (i % 5 + 3 * (i / 5)) (i % 5)) (rotAt (i % 5 + 3 * (i / 5)) (i % 5)) := by
  simp [rhopi]

theorem getElem_theta (a : Lanes) (i : Nat) (h : i < 25) :
    (theta a)[i] = a[i] ^^^ (columnParity a ((i + 4) % 5) ^^^ rol64 (columnParity a ((i + 1) % 5)) 1) := by
  simp [theta]

/-- Where a round constant stands in the table of R100. -/
theorem getElem_roundConstants (r : Fin 24) : roundConstants[r] =
    if r.val < 12 then (roundConstantRow ⟨r.val % 12, Nat.mod_lt _ (by decide)⟩).1
    else (roundConstantRow ⟨r.val % 12, Nat.mod_lt _ (by decide)⟩).2 := by
  simp [roundConstants]

/-- The permutation is its 24 rounds, ascending (R107). -/
theorem keccakF_eq_foldl (a : Lanes) : keccakF a = (List.finRange 24).foldl keccakRound a := by
  unfold keccakF; rfl

@[simp] theorem getElem_zeroLanes (i : Nat) (h : i < 25) : zeroLanes[i] = 0 := by simp [zeroLanes]

/-! ### Padding -/

theorem length_xorLast (v : Byte) (p : List Byte) : (xorLast v p).length = p.length := by
  induction p using xorLast.induct with
  | case1 => rfl
  | case2 => rfl
  | case3 x y rest ih => simpa [xorLast] using ih

theorem xorLast_append_single (v : Byte) (p : List Byte) (x : Byte) : xorLast v (p ++ [x]) = p ++ [x ^^^ v] := by
  induction p with
  | nil => rfl
  | cons a p ih =>
    cases p with
    | nil => rfl
    | cons b p => simpa [xorLast] using ih

theorem length_pad (m : List Byte) : (pad m).length = 136 * (m.length / 136 + 1) := by
  simp [pad, length_xorLast, Config.rate]
  omega

/-! ### Squeeze -/

@[simp] theorem squeeze_zero (a : Lanes) (p : Nat) : squeeze a p 0 = ⟨a, p, []⟩ := rfl

theorem squeeze_succ_permute (a : Lanes) (n : Nat) : squeeze a 136 (n + 1) =
    ⟨(squeeze (keccakF a) 1 n).lanes, (squeeze (keccakF a) 1 n).spos,
      stateByte (keccakF a) 0 :: (squeeze (keccakF a) 1 n).out⟩ := rfl

theorem squeeze_succ {a : Lanes} {p : Nat} (h : p ≠ 136) (n : Nat) : squeeze a p (n + 1) =
    ⟨(squeeze a (p + 1) n).lanes, (squeeze a (p + 1) n).spos, stateByte a p :: (squeeze a (p + 1) n).out⟩ := by
  simp [squeeze, h]

theorem length_squeeze (a : Lanes) (p n : Nat) : (squeeze a p n).out.length = n := by
  induction n generalizing a p with
  | zero => rfl
  | succ n ih =>
    by_cases h : p = 136
    · subst h; rw [squeeze_succ_permute]; simp [ih]
    · rw [squeeze_succ h]; simp [ih]

theorem squeeze_spos_le {a : Lanes} {p n : Nat} (h : p ≤ 136) : (squeeze a p n).spos ≤ 136 := by
  induction n generalizing a p with
  | zero => exact h
  | succ n ih =>
    by_cases hp : p = 136
    · subst hp; rw [squeeze_succ_permute]; exact ih (by omega)
    · rw [squeeze_succ hp]; exact ih (by omega)

/-- Without a permutation the squeeze is a window of the state bytes. -/
theorem squeeze_window {a : Lanes} {p n : Nat} (h : p + n ≤ 136) :
    squeeze a p n = ⟨a, p + n, (List.range' p n).map (stateByte a)⟩ := by
  induction n generalizing p with
  | zero => rfl
  | succ n ih =>
    rw [squeeze_succ (by omega), ih (by omega)]
    simp [List.range'_succ]
    omega

theorem length_keccak256 (m : List Byte) : (keccak256 m).length = 32 := by
  unfold keccak256 digestSqueeze; exact length_squeeze _ _ _

/-- The digest's squeeze needs no permutation of its own: the lanes stay and `SPOS` ends at 32 (R124, R128). -/
theorem digestSqueeze_eq (m : List Byte) : digestSqueeze m =
    ⟨hashLanes m, 32, (List.range' 0 32).map (stateByte (hashLanes m))⟩ := by
  unfold digestSqueeze
  exact squeeze_window (p := 0) (n := Config.digest) (by decide)

@[simp] theorem digestSqueeze_lanes (m : List Byte) : (digestSqueeze m).lanes = hashLanes m := by
  rw [digestSqueeze_eq]

theorem keccak256_eq (m : List Byte) : keccak256 m = (List.range' 0 32).map (stateByte (hashLanes m)) := by
  unfold keccak256; rw [digestSqueeze_eq]

end Sys2Proof.Machine
end

