-- ==== Sys2Proof/Laws/Encoding.lean ====
section
/-! SUPPORT. The fields of a packed word and the packing of a word's fields (R70, R78). -/

namespace Sys2Proof

theorem toNat_packWord (o : BitVec 8) (x : BitVec 1) (z : BitVec 7) (m : BitVec 16) :
    (packWord o x z m).toNat = o.toNat * 2 ^ 24 + x.toNat * 2 ^ 23 + z.toNat * 2 ^ 16 + m.toNat := by
  have hx := x.isLt
  have hz := z.isLt
  have hm := m.isLt
  show BitVec.toNat (w := 8 + 1 + 7 + 16) (o ++ x ++ z ++ m) = _
  rw [BitVec.toNat_append, BitVec.toNat_append, BitVec.toNat_append,
    ← Nat.shiftLeft_add_eq_or_of_lt hx, ← Nat.shiftLeft_add_eq_or_of_lt hz,
    ← Nat.shiftLeft_add_eq_or_of_lt hm]
  simp only [Nat.shiftLeft_eq]
  omega

theorem toNat_opcField (w : CmdWord) : (opcField w).toNat = w.toNat / 2 ^ 24 := by
  have := w.isLt
  simp only [opcField, BitVec.extractLsb'_toNat, Nat.shiftRight_eq_div_pow]
  omega

theorem toNat_xField (w : CmdWord) : (xField w).toNat = w.toNat / 2 ^ 23 % 2 := by
  simp only [xField, BitVec.extractLsb'_toNat, Nat.shiftRight_eq_div_pow]

theorem toNat_zeroField (w : CmdWord) : (zeroField w).toNat = w.toNat / 2 ^ 16 % 2 ^ 7 := by
  simp only [zeroField, BitVec.extractLsb'_toNat, Nat.shiftRight_eq_div_pow]

theorem toNat_immField (w : CmdWord) : (immField w).toNat = w.toNat % 2 ^ 16 := by
  simp only [immField, BitVec.extractLsb'_toNat, Nat.shiftRight_eq_div_pow]
  omega

section
variable (o : BitVec 8) (x : BitVec 1) (z : BitVec 7) (m : BitVec 16)

@[simp] theorem opcField_packWord : opcField (packWord o x z m) = o := by
  apply BitVec.eq_of_toNat_eq
  rw [toNat_opcField, toNat_packWord]
  have := x.isLt; have := z.isLt; have := m.isLt
  omega

@[simp] theorem xField_packWord : xField (packWord o x z m) = x := by
  apply BitVec.eq_of_toNat_eq
  rw [toNat_xField, toNat_packWord]
  have := x.isLt; have := z.isLt; have := m.isLt
  omega

@[simp] theorem zeroField_packWord : zeroField (packWord o x z m) = z := by
  apply BitVec.eq_of_toNat_eq
  rw [toNat_zeroField, toNat_packWord]
  have := z.isLt; have := m.isLt
  omega

@[simp] theorem immField_packWord : immField (packWord o x z m) = m := by
  apply BitVec.eq_of_toNat_eq
  rw [toNat_immField, toNat_packWord]
  have := m.isLt
  omega

end

/-- A word is its four fields: packing them gives it back. -/
theorem packWord_fields (w : CmdWord) : packWord (opcField w) (xField w) (zeroField w) (immField w) = w := by
  apply BitVec.eq_of_toNat_eq
  rw [toNat_packWord, toNat_opcField, toNat_xField, toNat_zeroField, toNat_immField]
  omega

/-- The decoder on a packed word: the lookup of R80 when `ZERO` is 0. -/
theorem decode_packWord (o : BitVec 8) (x : BitVec 1) (m : BitVec 16) :
    decode (packWord o x 0#7 m) = decodeOpc o x m := by
  simp [decode]

@[simp] theorem extract_low_setWidth8 (b : BitVec 8) : (b.setWidth 16).extractLsb' 0 8 = b := by
  apply BitVec.eq_of_toNat_eq
  have := b.isLt
  simp [BitVec.extractLsb'_toNat]
  omega

@[simp] theorem extract_high_setWidth8 (b : BitVec 8) : (b.setWidth 16).extractLsb' 8 8 = 0#8 := by
  apply BitVec.eq_of_toNat_eq
  have := b.isLt
  simp [BitVec.extractLsb'_toNat, Nat.shiftRight_eq_div_pow]
  omega

@[simp] theorem extract_low_setWidth5 (r : BitVec 5) : (r.setWidth 16).extractLsb' 0 5 = r := by
  apply BitVec.eq_of_toNat_eq
  have := r.isLt
  simp [BitVec.extractLsb'_toNat]
  omega

@[simp] theorem extract_high_setWidth5 (r : BitVec 5) : (r.setWidth 16).extractLsb' 5 11 = 0#11 := by
  apply BitVec.eq_of_toNat_eq
  have := r.isLt
  simp [BitVec.extractLsb'_toNat, Nat.shiftRight_eq_div_pow]
  omega

/-- A 16-bit immediate whose bits above the low 8 are 0 is those 8 bits. -/
theorem setWidth_low8_of_high_zero {m : BitVec 16} (h : m.extractLsb' 8 8 = 0#8) :
    (m.extractLsb' 0 8).setWidth 16 = m := by
  have h' := congrArg BitVec.toNat h
  apply BitVec.eq_of_toNat_eq
  have := m.isLt
  simp [BitVec.extractLsb'_toNat, Nat.shiftRight_eq_div_pow] at h' ⊢
  omega

/-- A 16-bit immediate whose bits above the low 5 are 0 is those 5 bits. -/
theorem setWidth_low5_of_high_zero {m : BitVec 16} (h : m.extractLsb' 5 11 = 0#11) :
    (m.extractLsb' 0 5).setWidth 16 = m := by
  have h' := congrArg BitVec.toNat h
  apply BitVec.eq_of_toNat_eq
  have := m.isLt
  simp [BitVec.extractLsb'_toNat, Nat.shiftRight_eq_div_pow] at h' ⊢
  omega

/-- A one-bit field is 0 or 1. -/
theorem bit_cases (x : BitVec 1) : x = 0#1 ∨ x = 1#1 := by
  revert x; decide

end Sys2Proof
end

