-- ==== Sys2Proof/Laws/State.lean ====
section
/-! SUPPORT. One lemma per field per named update of State: what each update leaves in each register. -/

namespace Sys2Proof.Machine

/-! ### advance -/

@[simp] theorem State.advance_lanes (s : State) : s.advance.lanes = s.lanes := rfl
@[simp] theorem State.advance_spos (s : State) : s.advance.spos = s.spos := rfl
@[simp] theorem State.advance_ibuf (s : State) : s.advance.ibuf = s.ibuf := rfl
@[simp] theorem State.advance_obuf (s : State) : s.advance.obuf = s.obuf := rfl
@[simp] theorem State.advance_selr (s : State) : s.advance.selr = s.selr := rfl
@[simp] theorem State.advance_selv (s : State) : s.advance.selv = s.selv := rfl
@[simp] theorem State.advance_ityp (s : State) : s.advance.ityp = s.ityp := rfl
@[simp] theorem State.advance_otyp (s : State) : s.advance.otyp = s.otyp := rfl
@[simp] theorem State.advance_argv (s : State) : s.advance.argv = s.argv := rfl
@[simp] theorem State.advance_resv (s : State) : s.advance.resv = s.resv := rfl
@[simp] theorem State.advance_err (s : State) : s.advance.err = s.err := rfl
@[simp] theorem State.advance_ecode (s : State) : s.advance.ecode = s.ecode := rfl
@[simp] theorem State.advance_epos (s : State) : s.advance.epos = s.epos := rfl
@[simp] theorem State.advance_ecmd (s : State) : s.advance.ecmd = s.ecmd := rfl
@[simp] theorem State.advance_ecp (s : State) : s.advance.ecp = s.ecp := rfl
@[simp] theorem State.advance_cp (s : State) : s.advance.cp = s.cp + 1 := rfl
@[simp] theorem State.advance_params (s : State) : s.advance.params = s.params := rfl
@[simp] theorem State.advance_moves (s : State) : s.advance.moves = s.moves := rfl

/-! ### enterFault -/

@[simp] theorem State.enterFault_lanes (s : State) (e : Raise) (w : CmdWord) : (s.enterFault e w).lanes = s.lanes := rfl
@[simp] theorem State.enterFault_spos (s : State) (e : Raise) (w : CmdWord) : (s.enterFault e w).spos = s.spos := rfl
@[simp] theorem State.enterFault_ibuf (s : State) (e : Raise) (w : CmdWord) : (s.enterFault e w).ibuf = s.ibuf := rfl
@[simp] theorem State.enterFault_obuf (s : State) (e : Raise) (w : CmdWord) : (s.enterFault e w).obuf = s.obuf := rfl
@[simp] theorem State.enterFault_selr (s : State) (e : Raise) (w : CmdWord) : (s.enterFault e w).selr = s.selr := rfl
@[simp] theorem State.enterFault_selv (s : State) (e : Raise) (w : CmdWord) : (s.enterFault e w).selv = s.selv := rfl
@[simp] theorem State.enterFault_ityp (s : State) (e : Raise) (w : CmdWord) : (s.enterFault e w).ityp = s.ityp := rfl
@[simp] theorem State.enterFault_otyp (s : State) (e : Raise) (w : CmdWord) : (s.enterFault e w).otyp = s.otyp := rfl
@[simp] theorem State.enterFault_argv (s : State) (e : Raise) (w : CmdWord) : (s.enterFault e w).argv = s.argv := rfl
@[simp] theorem State.enterFault_resv (s : State) (e : Raise) (w : CmdWord) : (s.enterFault e w).resv = s.resv := rfl
@[simp] theorem State.enterFault_err (s : State) (e : Raise) (w : CmdWord) : (s.enterFault e w).err = true := rfl
@[simp] theorem State.enterFault_ecode (s : State) (e : Raise) (w : CmdWord) : (s.enterFault e w).ecode = faultCode e.kind := rfl
@[simp] theorem State.enterFault_epos (s : State) (e : Raise) (w : CmdWord) : (s.enterFault e w).epos = eposOf e.pos := rfl
@[simp] theorem State.enterFault_ecmd (s : State) (e : Raise) (w : CmdWord) : (s.enterFault e w).ecmd = w := rfl
@[simp] theorem State.enterFault_ecp (s : State) (e : Raise) (w : CmdWord) : (s.enterFault e w).ecp = s.cp := rfl
@[simp] theorem State.enterFault_cp (s : State) (e : Raise) (w : CmdWord) : (s.enterFault e w).cp = s.cp + 1 := rfl
@[simp] theorem State.enterFault_params (s : State) (e : Raise) (w : CmdWord) : (s.enterFault e w).params = s.params := rfl
@[simp] theorem State.enterFault_moves (s : State) (e : Raise) (w : CmdWord) : (s.enterFault e w).moves = s.moves := rfl

/-! ### clearFault -/

@[simp] theorem State.clearFault_lanes (s : State) : s.clearFault.lanes = s.lanes := rfl
@[simp] theorem State.clearFault_spos (s : State) : s.clearFault.spos = s.spos := rfl
@[simp] theorem State.clearFault_ibuf (s : State) : s.clearFault.ibuf = s.ibuf := rfl
@[simp] theorem State.clearFault_obuf (s : State) : s.clearFault.obuf = s.obuf := rfl
@[simp] theorem State.clearFault_selr (s : State) : s.clearFault.selr = s.selr := rfl
@[simp] theorem State.clearFault_selv (s : State) : s.clearFault.selv = s.selv := rfl
@[simp] theorem State.clearFault_ityp (s : State) : s.clearFault.ityp = s.ityp := rfl
@[simp] theorem State.clearFault_otyp (s : State) : s.clearFault.otyp = s.otyp := rfl
@[simp] theorem State.clearFault_argv (s : State) : s.clearFault.argv = s.argv := rfl
@[simp] theorem State.clearFault_resv (s : State) : s.clearFault.resv = s.resv := rfl
@[simp] theorem State.clearFault_err (s : State) : s.clearFault.err = false := rfl
@[simp] theorem State.clearFault_ecode (s : State) : s.clearFault.ecode = 0 := rfl
@[simp] theorem State.clearFault_epos (s : State) : s.clearFault.epos = 0 := rfl
@[simp] theorem State.clearFault_ecmd (s : State) : s.clearFault.ecmd = 0 := rfl
@[simp] theorem State.clearFault_ecp (s : State) : s.clearFault.ecp = 0 := rfl
@[simp] theorem State.clearFault_cp (s : State) : s.clearFault.cp = s.cp := rfl
@[simp] theorem State.clearFault_params (s : State) : s.clearFault.params = s.params := rfl
@[simp] theorem State.clearFault_moves (s : State) : s.clearFault.moves = s.moves := rfl

/-! ### setSelector -/

@[simp] theorem State.setSelector_lanes (s : State) (d : List Byte) : (s.setSelector d).lanes = s.lanes := rfl
@[simp] theorem State.setSelector_spos (s : State) (d : List Byte) : (s.setSelector d).spos = s.spos := rfl
@[simp] theorem State.setSelector_ibuf (s : State) (d : List Byte) : (s.setSelector d).ibuf = s.ibuf := rfl
@[simp] theorem State.setSelector_obuf (s : State) (d : List Byte) : (s.setSelector d).obuf = s.obuf := rfl
@[simp] theorem State.setSelector_selr (s : State) (d : List Byte) : (s.setSelector d).selr = Vector.ofFn fun i : Fin 4 => d.getD i.val 0 := rfl
@[simp] theorem State.setSelector_selv (s : State) (d : List Byte) : (s.setSelector d).selv = true := rfl
@[simp] theorem State.setSelector_ityp (s : State) (d : List Byte) : (s.setSelector d).ityp = s.ityp := rfl
@[simp] theorem State.setSelector_otyp (s : State) (d : List Byte) : (s.setSelector d).otyp = s.otyp := rfl
@[simp] theorem State.setSelector_argv (s : State) (d : List Byte) : (s.setSelector d).argv = s.argv := rfl
@[simp] theorem State.setSelector_resv (s : State) (d : List Byte) : (s.setSelector d).resv = s.resv := rfl
@[simp] theorem State.setSelector_err (s : State) (d : List Byte) : (s.setSelector d).err = s.err := rfl
@[simp] theorem State.setSelector_ecode (s : State) (d : List Byte) : (s.setSelector d).ecode = s.ecode := rfl
@[simp] theorem State.setSelector_epos (s : State) (d : List Byte) : (s.setSelector d).epos = s.epos := rfl
@[simp] theorem State.setSelector_ecmd (s : State) (d : List Byte) : (s.setSelector d).ecmd = s.ecmd := rfl
@[simp] theorem State.setSelector_ecp (s : State) (d : List Byte) : (s.setSelector d).ecp = s.ecp := rfl
@[simp] theorem State.setSelector_cp (s : State) (d : List Byte) : (s.setSelector d).cp = s.cp := rfl
@[simp] theorem State.setSelector_params (s : State) (d : List Byte) : (s.setSelector d).params = s.params := rfl
@[simp] theorem State.setSelector_moves (s : State) (d : List Byte) : (s.setSelector d).moves = s.moves := rfl

/-! ### clearSelector -/

@[simp] theorem State.clearSelector_lanes (s : State) : s.clearSelector.lanes = s.lanes := rfl
@[simp] theorem State.clearSelector_spos (s : State) : s.clearSelector.spos = s.spos := rfl
@[simp] theorem State.clearSelector_ibuf (s : State) : s.clearSelector.ibuf = s.ibuf := rfl
@[simp] theorem State.clearSelector_obuf (s : State) : s.clearSelector.obuf = s.obuf := rfl
@[simp] theorem State.clearSelector_selr (s : State) : s.clearSelector.selr = Vector.replicate 4 0 := rfl
@[simp] theorem State.clearSelector_selv (s : State) : s.clearSelector.selv = false := rfl
@[simp] theorem State.clearSelector_ityp (s : State) : s.clearSelector.ityp = s.ityp := rfl
@[simp] theorem State.clearSelector_otyp (s : State) : s.clearSelector.otyp = s.otyp := rfl
@[simp] theorem State.clearSelector_argv (s : State) : s.clearSelector.argv = s.argv := rfl
@[simp] theorem State.clearSelector_resv (s : State) : s.clearSelector.resv = s.resv := rfl
@[simp] theorem State.clearSelector_err (s : State) : s.clearSelector.err = s.err := rfl
@[simp] theorem State.clearSelector_ecode (s : State) : s.clearSelector.ecode = s.ecode := rfl
@[simp] theorem State.clearSelector_epos (s : State) : s.clearSelector.epos = s.epos := rfl
@[simp] theorem State.clearSelector_ecmd (s : State) : s.clearSelector.ecmd = s.ecmd := rfl
@[simp] theorem State.clearSelector_ecp (s : State) : s.clearSelector.ecp = s.ecp := rfl
@[simp] theorem State.clearSelector_cp (s : State) : s.clearSelector.cp = s.cp := rfl
@[simp] theorem State.clearSelector_params (s : State) : s.clearSelector.params = s.params := rfl
@[simp] theorem State.clearSelector_moves (s : State) : s.clearSelector.moves = s.moves := rfl

/-! ### assertReset -/

@[simp] theorem State.assertReset_lanes (s : State) : s.assertReset.lanes = Vector.replicate 25 0 := rfl
@[simp] theorem State.assertReset_spos (s : State) : s.assertReset.spos = 0 := rfl
@[simp] theorem State.assertReset_ibuf (s : State) : s.assertReset.ibuf = [] := rfl
@[simp] theorem State.assertReset_obuf (s : State) : s.assertReset.obuf = [] := rfl
@[simp] theorem State.assertReset_selr (s : State) : s.assertReset.selr = Vector.replicate 4 0 := rfl
@[simp] theorem State.assertReset_selv (s : State) : s.assertReset.selv = false := rfl
@[simp] theorem State.assertReset_ityp (s : State) : s.assertReset.ityp = [] := rfl
@[simp] theorem State.assertReset_otyp (s : State) : s.assertReset.otyp = [] := rfl
@[simp] theorem State.assertReset_argv (s : State) : s.assertReset.argv = [] := rfl
@[simp] theorem State.assertReset_resv (s : State) : s.assertReset.resv = [] := rfl
@[simp] theorem State.assertReset_err (s : State) : s.assertReset.err = false := rfl
@[simp] theorem State.assertReset_ecode (s : State) : s.assertReset.ecode = 0 := rfl
@[simp] theorem State.assertReset_epos (s : State) : s.assertReset.epos = 0 := rfl
@[simp] theorem State.assertReset_ecmd (s : State) : s.assertReset.ecmd = 0 := rfl
@[simp] theorem State.assertReset_ecp (s : State) : s.assertReset.ecp = 0 := rfl
@[simp] theorem State.assertReset_cp (s : State) : s.assertReset.cp = 0 := rfl
@[simp] theorem State.assertReset_params (s : State) : s.assertReset.params = s.params := rfl
@[simp] theorem State.assertReset_moves (s : State) : s.assertReset.moves = s.moves := rfl

/-! ### withFetchWord -/

@[simp] theorem State.withFetchWord_lanes (s : State) (n w : Nat) : (s.withFetchWord n w).lanes = s.lanes := rfl
@[simp] theorem State.withFetchWord_spos (s : State) (n w : Nat) : (s.withFetchWord n w).spos = s.spos := rfl
@[simp] theorem State.withFetchWord_ibuf (s : State) (n w : Nat) : (s.withFetchWord n w).ibuf = s.ibuf := rfl
@[simp] theorem State.withFetchWord_obuf (s : State) (n w : Nat) : (s.withFetchWord n w).obuf = s.obuf := rfl
@[simp] theorem State.withFetchWord_selr (s : State) (n w : Nat) : (s.withFetchWord n w).selr = s.selr := rfl
@[simp] theorem State.withFetchWord_selv (s : State) (n w : Nat) : (s.withFetchWord n w).selv = s.selv := rfl
@[simp] theorem State.withFetchWord_ityp (s : State) (n w : Nat) : (s.withFetchWord n w).ityp = s.ityp := rfl
@[simp] theorem State.withFetchWord_otyp (s : State) (n w : Nat) : (s.withFetchWord n w).otyp = s.otyp := rfl
@[simp] theorem State.withFetchWord_argv (s : State) (n w : Nat) : (s.withFetchWord n w).argv = s.argv := rfl
@[simp] theorem State.withFetchWord_resv (s : State) (n w : Nat) : (s.withFetchWord n w).resv = s.resv := rfl
@[simp] theorem State.withFetchWord_err (s : State) (n w : Nat) : (s.withFetchWord n w).err = s.err := rfl
@[simp] theorem State.withFetchWord_ecode (s : State) (n w : Nat) : (s.withFetchWord n w).ecode = s.ecode := rfl
@[simp] theorem State.withFetchWord_epos (s : State) (n w : Nat) : (s.withFetchWord n w).epos = s.epos := rfl
@[simp] theorem State.withFetchWord_ecmd (s : State) (n w : Nat) : (s.withFetchWord n w).ecmd = s.ecmd := rfl
@[simp] theorem State.withFetchWord_ecp (s : State) (n w : Nat) : (s.withFetchWord n w).ecp = s.ecp := rfl
@[simp] theorem State.withFetchWord_cp (s : State) (n w : Nat) : (s.withFetchWord n w).cp = s.cp := rfl
@[simp] theorem State.withFetchWord_params (s : State) (n w : Nat) : (s.withFetchWord n w).params = s.params := rfl
@[simp] theorem State.withFetchWord_moves (s : State) (n w : Nat) : (s.withFetchWord n w).moves = .push (tableWord n w) :: s.moves := rfl

/-! ### withProgram -/

@[simp] theorem State.withProgram_lanes (ws : List CmdWord) (s : State) : (s.withProgram ws).lanes = s.lanes := rfl
@[simp] theorem State.withProgram_spos (ws : List CmdWord) (s : State) : (s.withProgram ws).spos = s.spos := rfl
@[simp] theorem State.withProgram_ibuf (ws : List CmdWord) (s : State) : (s.withProgram ws).ibuf = s.ibuf := rfl
@[simp] theorem State.withProgram_obuf (ws : List CmdWord) (s : State) : (s.withProgram ws).obuf = s.obuf := rfl
@[simp] theorem State.withProgram_selr (ws : List CmdWord) (s : State) : (s.withProgram ws).selr = s.selr := rfl
@[simp] theorem State.withProgram_selv (ws : List CmdWord) (s : State) : (s.withProgram ws).selv = s.selv := rfl
@[simp] theorem State.withProgram_ityp (ws : List CmdWord) (s : State) : (s.withProgram ws).ityp = s.ityp := rfl
@[simp] theorem State.withProgram_otyp (ws : List CmdWord) (s : State) : (s.withProgram ws).otyp = s.otyp := rfl
@[simp] theorem State.withProgram_argv (ws : List CmdWord) (s : State) : (s.withProgram ws).argv = s.argv := rfl
@[simp] theorem State.withProgram_resv (ws : List CmdWord) (s : State) : (s.withProgram ws).resv = s.resv := rfl
@[simp] theorem State.withProgram_err (ws : List CmdWord) (s : State) : (s.withProgram ws).err = s.err := rfl
@[simp] theorem State.withProgram_ecode (ws : List CmdWord) (s : State) : (s.withProgram ws).ecode = s.ecode := rfl
@[simp] theorem State.withProgram_epos (ws : List CmdWord) (s : State) : (s.withProgram ws).epos = s.epos := rfl
@[simp] theorem State.withProgram_ecmd (ws : List CmdWord) (s : State) : (s.withProgram ws).ecmd = s.ecmd := rfl
@[simp] theorem State.withProgram_ecp (ws : List CmdWord) (s : State) : (s.withProgram ws).ecp = s.ecp := rfl
@[simp] theorem State.withProgram_cp (ws : List CmdWord) (s : State) : (s.withProgram ws).cp = s.cp := rfl
@[simp] theorem State.withProgram_params (ws : List CmdWord) (s : State) : (s.withProgram ws).params = s.params := rfl
@[simp] theorem State.withProgram_moves (ws : List CmdWord) (s : State) : (s.withProgram ws).moves = ws.map .push := rfl

/-! ### resetWith -/

@[simp] theorem State.resetWith_lanes (p : Params) : (State.resetWith p).lanes = Vector.replicate 25 0 := rfl
@[simp] theorem State.resetWith_spos (p : Params) : (State.resetWith p).spos = 0 := rfl
@[simp] theorem State.resetWith_ibuf (p : Params) : (State.resetWith p).ibuf = [] := rfl
@[simp] theorem State.resetWith_obuf (p : Params) : (State.resetWith p).obuf = [] := rfl
@[simp] theorem State.resetWith_selr (p : Params) : (State.resetWith p).selr = Vector.replicate 4 0 := rfl
@[simp] theorem State.resetWith_selv (p : Params) : (State.resetWith p).selv = false := rfl
@[simp] theorem State.resetWith_ityp (p : Params) : (State.resetWith p).ityp = [] := rfl
@[simp] theorem State.resetWith_otyp (p : Params) : (State.resetWith p).otyp = [] := rfl
@[simp] theorem State.resetWith_argv (p : Params) : (State.resetWith p).argv = [] := rfl
@[simp] theorem State.resetWith_resv (p : Params) : (State.resetWith p).resv = [] := rfl
@[simp] theorem State.resetWith_err (p : Params) : (State.resetWith p).err = false := rfl
@[simp] theorem State.resetWith_ecode (p : Params) : (State.resetWith p).ecode = 0 := rfl
@[simp] theorem State.resetWith_epos (p : Params) : (State.resetWith p).epos = 0 := rfl
@[simp] theorem State.resetWith_ecmd (p : Params) : (State.resetWith p).ecmd = 0 := rfl
@[simp] theorem State.resetWith_ecp (p : Params) : (State.resetWith p).ecp = 0 := rfl
@[simp] theorem State.resetWith_cp (p : Params) : (State.resetWith p).cp = 0 := rfl
@[simp] theorem State.resetWith_params (p : Params) : (State.resetWith p).params = p := rfl
@[simp] theorem State.resetWith_moves (p : Params) : (State.resetWith p).moves = [] := rfl

end Sys2Proof.Machine
end

