-- ==== Sys2Proof/Laws/Ops.lean ====
section
/-! SUPPORT. What taking a command, a fault and a step can do, said once each (R76, R226 to R229). -/

namespace Sys2Proof.Machine

/-! ### takeCommand -/

theorem takeCommand_latched {w : CmdWord} {f : State → Except Raise State} {s : State} (h : s.err = true) :
    takeCommand w f s = .next s.advance := by
  simp [takeCommand, h]

theorem takeCommand_ok {w : CmdWord} {f : State → Except Raise State} {s t : State} (h : s.err = false)
    (hf : f s = .ok t) : takeCommand w f s = .next t.advance := by
  simp [takeCommand, h, hf]

theorem takeCommand_error {w : CmdWord} {f : State → Except Raise State} {s : State} {e : Raise} (h : s.err = false)
    (hf : f s = .error e) : takeCommand w f s = .next (s.enterFault e w) := by
  simp [takeCommand, h, hf]

/-- Everything a taken command can do: it is skipped, it has its effect, or it enters a fault. -/
theorem takeCommand_cases {w : CmdWord} {f : State → Except Raise State} {s t : State}
    (h : takeCommand w f s = .next t) :
    (s.err = true ∧ t = s.advance)
    ∨ (∃ u, s.err = false ∧ f s = .ok u ∧ t = u.advance)
    ∨ (∃ e, s.err = false ∧ f s = .error e ∧ t = s.enterFault e w) := by
  unfold takeCommand at h
  split at h
  · rename_i he; cases h; exact .inl ⟨he, rfl⟩
  · rename_i he
    split at h
    · rename_i u hu; cases h; exact .inr (.inl ⟨u, by simpa using he, hu, rfl⟩)
    · rename_i e hu; cases h; exact .inr (.inr ⟨e, by simpa using he, hu, rfl⟩)

/-- A taken command always gives a next state (R76). -/
theorem takeCommand_total (w : CmdWord) (f : State → Except Raise State) (s : State) :
    ∃ t, takeCommand w f s = .next t := by
  unfold takeCommand
  split
  · exact ⟨_, rfl⟩
  · split <;> exact ⟨_, rfl⟩

theorem clearFault_enterFault (s : State) (e : Raise) (w : CmdWord) :
    (s.enterFault e w).clearFault = s.clearFault.advance := rfl

/-! ### exec and step -/

/-- The effect of every command but `CLRERR`, which the latch does not stop. -/
def effectOf : Instr → State → Except Raise State
  | .nop => nopEffect
  | .clrerr => fun s => .ok s.clearFault
  | .iclr => iclrEffect
  | .iput b => iputEffect b
  | .xfer k => xferEffect k
  | .pclr => pclrEffect
  | .prnd r => prndEffect r
  | .perm => permEffect
  | .abs => absEffect
  | .sqz n => sqzEffect n
  | .hash => hashEffect
  | .hashX => hashXEffect
  | .sel => selEffect
  | .selX => selXEffect
  | .dclr => dclrEffect
  | .tin t => tinEffect t
  | .tout t => toutEffect t
  | .aclr => aclrEffect
  | .apush => apushEffect
  | .enc => encInto id
  | .encX => encInto hex0x
  | .dec => decEffect
  | .decX => decXEffect
  | .rget j => rgetEffect j

/-- Every meaning but that of `CLRERR` is its effect, taken as R76 says. -/
theorem exec_eq_takeCommand {i : Instr} (h : i ≠ .clrerr) (s : State) :
    exec i s = takeCommand (encode i) (effectOf i) s := by
  cases i <;> first | rfl | exact absurd rfl h

@[simp] theorem exec_clrerr (s : State) : exec .clrerr s = .next s.clearFault.advance := rfl

/-- In an unlatched state `CLRERR` too is its effect. -/
theorem exec_unlatched (i : Instr) {s : State} (hs : s.err = false) :
    exec i s = takeCommand (encode i) (effectOf i) s := by
  by_cases h : i = .clrerr
  · subst h; simp [takeCommand, hs, effectOf]
  · exact exec_eq_takeCommand h s

/-- Every command gives a next state (R76). -/
theorem exec_total (i : Instr) (s : State) : ∃ t, exec i s = .next t := by
  by_cases h : i = .clrerr
  · subst h; exact ⟨_, rfl⟩
  · rw [exec_eq_takeCommand h]; exact takeCommand_total _ _ _

theorem takeWord_some {w : CmdWord} {i : Instr} (h : decode w = some i) (s : State) : takeWord w s = exec i s := by
  simp [takeWord, h]

theorem takeWord_none {w : CmdWord} (h : decode w = none) (s : State) : takeWord w s = takeIllegal w s := by
  simp [takeWord, h]

theorem takeIllegal_unlatched {w : CmdWord} {s : State} (h : s.err = false) :
    takeIllegal w s = .next (s.enterFault (raise0 .illegalCommand) w) := takeCommand_error h rfl

theorem step_push {s : State} {w : CmdWord} {rest : List HostMove} (h : s.moves = .push w :: rest) :
    step s = takeWord w { s with moves := rest } := by
  simp [step, h]

theorem step_reset {s : State} {rest : List HostMove} (h : s.moves = .assertReset :: rest) :
    step s = .next { s with moves := rest }.assertReset := by
  simp [step, h]

theorem step_idle {s : State} (h : s.moves = []) : step s = .next s := by
  simp [step, h]

/-- The word that `withFetchWord` pushes is the one the very next step takes. -/
theorem step_withFetchWord (s : State) (n w : Nat) : step (s.withFetchWord n w) = takeWord (tableWord n w) s := rfl

end Sys2Proof.Machine
end

