-- ==== Sys2Proof/Laws/Effects.lean ====
section
/-! SUPPORT. What each effect can answer, said once: when it is `ok` and with what, when it raises and what. A proof
about an effect cites these and never takes an equation between effects apart, which would evaluate the permutation. -/

namespace Sys2Proof.Machine

/-! ### Buffer and control -/

theorem iputEffect_ok_iff {b : BitVec 8} {s u : State} : iputEffect b s = .ok u ↔
    s.params.bufCap ≠ some s.ibuf.length ∧ u = { s with ibuf := s.ibuf ++ [b] } := by
  unfold iputEffect; split <;> simp_all [eq_comm]

theorem iputEffect_error_iff {b : BitVec 8} {s : State} {e : Raise} : iputEffect b s = .error e ↔
    s.params.bufCap = some s.ibuf.length ∧ e = raise0 .capacityFault := by
  unfold iputEffect; split <;> simp_all [eq_comm]

theorem xferEffect_ok_iff {k : BitVec 16} {s u : State} : xferEffect k s = .ok u ↔
    k.toNat ≤ s.obuf.length ∧ u = { s with ibuf := s.obuf.drop k.toNat } := by
  unfold xferEffect
  split
  · rename_i h; simp; omega
  · rename_i h; simp [eq_comm, Nat.not_lt.mp h]

theorem xferEffect_error_iff {k : BitVec 16} {s : State} {e : Raise} : xferEffect k s = .error e ↔
    s.obuf.length < k.toNat ∧ e = raise0 .rangeFault := by
  unfold xferEffect; split <;> simp_all [eq_comm]

/-! ### Permutation engine and sponge controller -/

theorem prndEffect_ok_iff {r : BitVec 5} {s u : State} : prndEffect r s = .ok u ↔
    ∃ h : r.toNat < 24, u = { s with lanes := keccakRound s.lanes ⟨r.toNat, h⟩ } := by
  unfold prndEffect
  split
  · rename_i h; simp only [Except.ok.injEq, h, exists_true_left]; exact eq_comm
  · rename_i h; simp only [h, reduceCtorEq, false_iff]; exact fun ⟨h, _⟩ => h

theorem prndEffect_error_iff {r : BitVec 5} {s : State} {e : Raise} : prndEffect r s = .error e ↔
    24 ≤ r.toNat ∧ e = raise0 .illegalCommand := by
  unfold prndEffect
  split
  · rename_i h; simp only [reduceCtorEq, false_iff]; omega
  · rename_i h; simp [Nat.not_lt.mp h, eq_comm]

theorem sqzEffect_ok_iff {n : BitVec 16} {s u : State} : sqzEffect n s = .ok u ↔
    s.params.bufFits n.toNat = true ∧ u = { s with
      lanes := (squeeze s.lanes s.spos n.toNat).lanes
      spos := (squeeze s.lanes s.spos n.toNat).spos
      obuf := (squeeze s.lanes s.spos n.toNat).out } := by
  unfold sqzEffect
  split
  · rename_i h; simp only [Except.ok.injEq, h, true_and]; exact eq_comm
  · rename_i h; simp only [reduceCtorEq, h, false_and]

theorem sqzEffect_error_iff {n : BitVec 16} {s : State} {e : Raise} : sqzEffect n s = .error e ↔
    s.params.bufFits n.toNat = false ∧ e = raise0 .capacityFault := by
  unfold sqzEffect
  split
  · rename_i h; simp only [reduceCtorEq, h, Bool.true_eq_false, false_and]
  · rename_i h; simp only [Except.error.injEq, Bool.not_eq_true _ ▸ h, true_and]; exact eq_comm

/-! ### Descriptor and staging -/

theorem tinEffect_ok_iff {t : BitVec 8} {s u : State} : tinEffect t s = .ok u ↔
    s.ityp.length ≠ s.params.listCap ∧ u = { s with ityp := s.ityp ++ [t] } := by
  unfold tinEffect; split <;> simp_all [eq_comm]

theorem tinEffect_error_iff {t : BitVec 8} {s : State} {e : Raise} : tinEffect t s = .error e ↔
    s.ityp.length = s.params.listCap ∧ e = raise0 .capacityFault := by
  unfold tinEffect; split <;> simp_all [eq_comm]

theorem toutEffect_ok_iff {t : BitVec 8} {s u : State} : toutEffect t s = .ok u ↔
    s.otyp.length ≠ s.params.listCap ∧ u = { s with otyp := s.otyp ++ [t] } := by
  unfold toutEffect; split <;> simp_all [eq_comm]

theorem toutEffect_error_iff {t : BitVec 8} {s : State} {e : Raise} : toutEffect t s = .error e ↔
    s.otyp.length = s.params.listCap ∧ e = raise0 .capacityFault := by
  unfold toutEffect; split <;> simp_all [eq_comm]

theorem apushEffect_ok_iff {s u : State} : apushEffect s = .ok u ↔
    s.argv.length ≠ s.params.listCap ∧ u = { s with argv := s.argv ++ [s.ibuf] } := by
  unfold apushEffect; split <;> simp_all [eq_comm]

theorem apushEffect_error_iff {s : State} {e : Raise} : apushEffect s = .error e ↔
    s.argv.length = s.params.listCap ∧ e = raise0 .capacityFault := by
  unfold apushEffect; split <;> simp_all [eq_comm]

/-! ### Codec -/

theorem encInto_ok_iff {render : List Byte → List Byte} {s u : State} : encInto render s = .ok u ↔
    ∃ p, encPayload s = .ok p ∧ s.params.bufFits (render p).length = true ∧ u = { s with obuf := render p } := by
  unfold encInto
  cases encPayload s with
  | error r => simp
  | ok p =>
    by_cases hf : s.params.bufFits (render p).length = true
    · simp only [hf, if_true, Except.ok.injEq, exists_eq_left', true_and]; exact eq_comm
    · simp [hf]

theorem encInto_error_iff {render : List Byte → List Byte} {s : State} {e : Raise} : encInto render s = .error e ↔
    encPayload s = .error e
    ∨ ∃ p, encPayload s = .ok p ∧ s.params.bufFits (render p).length = false ∧ e = raise0 .capacityFault := by
  unfold encInto
  cases encPayload s with
  | error r => simp
  | ok p =>
    by_cases hf : s.params.bufFits (render p).length = true
    · simp [hf]
    · simp only [hf, if_false, Except.error.injEq, Except.ok.injEq, reduceCtorEq, exists_eq_left', true_and, false_or]
      exact eq_comm

theorem decPayload_ok_iff {p : List Byte} {s u : State} : decPayload p s = .ok u ↔
    (p = [] ∧ u = { s with resv := [] })
    ∨ (p ≠ [] ∧ ∃ vs, decOutputs s.params p 0 s.otyp = .ok vs ∧ u = { s with resv := vs }) := by
  unfold decPayload
  by_cases hp : p = []
  · simp only [hp, List.isEmpty_nil, if_true, Except.ok.injEq, true_and, ne_eq, not_true, false_and, or_false]
    exact eq_comm
  · cases decOutputs s.params p 0 s.otyp with
    | error r => simp [hp]
    | ok vs => simp [hp, @eq_comm _ u]

theorem decPayload_error_iff {p : List Byte} {s : State} {e : Raise} : decPayload p s = .error e ↔
    p ≠ [] ∧ decOutputs s.params p 0 s.otyp = .error e := by
  unfold decPayload
  by_cases hp : p = []
  · simp [hp]
  · cases decOutputs s.params p 0 s.otyp <;> simp [hp]

theorem decXEffect_ok_iff {s u : State} : decXEffect s = .ok u ↔
    ∃ p, unhex s.ibuf = some p ∧ decPayload p s = .ok u := by
  unfold decXEffect; cases unhex s.ibuf <;> simp

theorem decXEffect_error_iff {s : State} {e : Raise} : decXEffect s = .error e ↔
    (unhex s.ibuf = none ∧ e = raise0 .operandFault)
    ∨ ∃ p, unhex s.ibuf = some p ∧ decPayload p s = .error e := by
  unfold decXEffect; cases unhex s.ibuf <;> simp [@eq_comm _ e]

theorem rgetEffect_ok_iff {j : BitVec 16} {s u : State} : rgetEffect j s = .ok u ↔
    ∃ v, s.resv[j.toNat]? = some v ∧ u = { s with obuf := v } := by
  unfold rgetEffect; cases s.resv[j.toNat]? <;> simp [@eq_comm _ u]

theorem rgetEffect_error_iff {j : BitVec 16} {s : State} {e : Raise} : rgetEffect j s = .error e ↔
    s.resv.length ≤ j.toNat ∧ e = raise0 .rangeFault := by
  rw [← List.getElem?_eq_none_iff]
  unfold rgetEffect; cases s.resv[j.toNat]? <;> simp [@eq_comm _ e]

/-! ### Effects that never raise -/

/-- The registers a hash leaves (R128, R129). -/
theorem hashInto_eq (render : List Byte → List Byte) (s : State) : hashInto render s =
    { s with lanes := hashLanes s.ibuf, spos := 32, obuf := render (keccak256 s.ibuf) } := by
  simp [hashInto, keccak256]

/-- The registers `SEL` leaves (R150). -/
theorem selInto_eq (render : List Byte → List Byte) (s : State) : selInto render s =
    State.setSelector
      { s with lanes := hashLanes s.ibuf, spos := 32, obuf := render ((keccak256 s.ibuf).take 4) } (keccak256 s.ibuf) := by
  simp [selInto, hashInto_eq]

theorem nopEffect_eq (s : State) : nopEffect s = .ok s := rfl
theorem iclrEffect_eq (s : State) : iclrEffect s = .ok { s with ibuf := [] } := rfl
theorem pclrEffect_eq (s : State) : pclrEffect s = .ok { s with lanes := zeroLanes, spos := 0 } := rfl
theorem permEffect_eq (s : State) : permEffect s = .ok { s with lanes := keccakF s.lanes } := rfl
theorem absEffect_eq (s : State) :
    absEffect s = .ok { s with lanes := absorb s.lanes (pad s.ibuf), spos := 0 } := rfl
theorem hashEffect_eq (s : State) : hashEffect s = .ok (hashInto id s) := rfl
theorem hashXEffect_eq (s : State) : hashXEffect s = .ok (hashInto hex0x s) := rfl
theorem selEffect_eq (s : State) : selEffect s = .ok (selInto id s) := rfl
theorem selXEffect_eq (s : State) : selXEffect s = .ok (selInto hex0x s) := rfl
theorem dclrEffect_eq (s : State) : dclrEffect s = .ok { s.clearSelector with ityp := [], otyp := [] } := rfl
theorem aclrEffect_eq (s : State) : aclrEffect s = .ok { s with argv := [] } := rfl

/-! ### What every effect leaves alone -/

/-- No effect moves `CP`, the open parameters or the host's moves; only `CLRERR`'s touches the error registers. -/
theorem effectOf_ok_frame {i : Instr} {s u : State} (h : effectOf i s = .ok u) :
    u.cp = s.cp ∧ u.params = s.params ∧ u.moves = s.moves
    ∧ (i ≠ .clrerr → u.err = s.err ∧ u.ecode = s.ecode ∧ u.epos = s.epos ∧ u.ecmd = s.ecmd ∧ u.ecp = s.ecp) := by
  cases i <;> simp only [effectOf] at h
  case nop => rw [nopEffect_eq] at h; injection h with h; subst h; simp
  case clrerr => injection h with h; subst h; simp
  case iclr => rw [iclrEffect_eq] at h; injection h with h; subst h; simp
  case iput => obtain ⟨_, rfl⟩ := iputEffect_ok_iff.mp h; simp
  case xfer => obtain ⟨_, rfl⟩ := xferEffect_ok_iff.mp h; simp
  case pclr => rw [pclrEffect_eq] at h; injection h with h; subst h; simp
  case prnd => obtain ⟨_, rfl⟩ := prndEffect_ok_iff.mp h; simp
  case perm => rw [permEffect_eq] at h; injection h with h; subst h; simp
  case abs => rw [absEffect_eq] at h; injection h with h; subst h; simp
  case sqz => obtain ⟨_, rfl⟩ := sqzEffect_ok_iff.mp h; simp
  case hash => rw [hashEffect_eq] at h; injection h with h; subst h; simp [hashInto]
  case hashX => rw [hashXEffect_eq] at h; injection h with h; subst h; simp [hashInto]
  case sel => rw [selEffect_eq] at h; injection h with h; subst h; simp [selInto, hashInto]
  case selX => rw [selXEffect_eq] at h; injection h with h; subst h; simp [selInto, hashInto]
  case dclr => rw [dclrEffect_eq] at h; injection h with h; subst h; simp
  case tin => obtain ⟨_, rfl⟩ := tinEffect_ok_iff.mp h; simp
  case tout => obtain ⟨_, rfl⟩ := toutEffect_ok_iff.mp h; simp
  case aclr => rw [aclrEffect_eq] at h; injection h with h; subst h; simp
  case apush => obtain ⟨_, rfl⟩ := apushEffect_ok_iff.mp h; simp
  case enc => obtain ⟨_, _, _, rfl⟩ := encInto_ok_iff.mp h; simp
  case encX => obtain ⟨_, _, _, rfl⟩ := encInto_ok_iff.mp h; simp
  case dec =>
    rcases decPayload_ok_iff.mp h with ⟨_, rfl⟩ | ⟨_, _, _, rfl⟩ <;> simp
  case decX =>
    obtain ⟨_, _, h⟩ := decXEffect_ok_iff.mp h
    rcases decPayload_ok_iff.mp h with ⟨_, rfl⟩ | ⟨_, _, _, rfl⟩ <;> simp
  case rget => obtain ⟨_, _, rfl⟩ := rgetEffect_ok_iff.mp h; simp

end Sys2Proof.Machine
end

