-- ==== Sys2Proof/Laws/PerInstr.lean ====
section
/-! SUPPORT. Per command: its word satisfies its row of spec/opcode_table.json (R73). -/

namespace Sys2Proof.Laws

/-- A mask that keeps the bits from `n` on rounds the word down to a multiple of `2^n`. -/
theorem toNat_and_high (w : CmdWord) (n : Nat) :
    (w &&& (BitVec.allOnes 32 <<< n)).toNat = w.toNat / 2 ^ n * 2 ^ n := by
  have h : w &&& (BitVec.allOnes 32 <<< n) = (w >>> n) <<< n := by
    ext i hi
    by_cases hin : i < n
    · simp [hin]
    · have : n + (i - n) = i := by omega
      rw [BitVec.getElem_and, BitVec.getElem_shiftLeft, BitVec.getElem_shiftLeft, BitVec.getElem_ushiftRight,
        BitVec.getElem_allOnes, this, BitVec.getLsbD_eq_getElem hi]
      simp [hin]
  have hle : w.toNat / 2 ^ n * 2 ^ n ≤ w.toNat := Nat.div_mul_le_self _ _
  have := w.isLt
  rw [h, BitVec.toNat_shiftLeft, BitVec.toNat_ushiftRight, Nat.shiftLeft_eq, Nat.shiftRight_eq_div_pow]
  exact Nat.mod_eq_of_lt (by omega)

namespace TableRow

/-- The word of a command with legal operands satisfies the match/mask row of its mnemonic. -/
def Statement (i : Instr) : Prop := wellFormed i = true → (maskRow i).accepts (encode i) = true

theorem nop : Statement .nop := fun _ => by decide

theorem clrerr : Statement .clrerr := fun _ => by decide

theorem iclr : Statement .iclr := fun _ => by decide

theorem iput (v : BitVec 8) : Statement (.iput v) := fun _ => by
  have hm : (0xFFFFFF00 : CmdWord) = BitVec.allOnes 32 <<< 8 := by decide
  have hv := v.isLt
  refine decide_eq_true (BitVec.eq_of_toNat_eq ?_)
  simp only [maskRow, encode]
  rw [hm, toNat_and_high, toNat_packWord]
  simp
  omega

theorem xfer (v : BitVec 16) : Statement (.xfer v) := fun _ => by
  have hm : (0xFFFF0000 : CmdWord) = BitVec.allOnes 32 <<< 16 := by decide
  have hv := v.isLt
  refine decide_eq_true (BitVec.eq_of_toNat_eq ?_)
  simp only [maskRow, encode]
  rw [hm, toNat_and_high, toNat_packWord]
  simp
  omega

theorem pclr : Statement .pclr := fun _ => by decide

theorem prnd (v : BitVec 5) : Statement (.prnd v) := fun _ => by
  have hm : (0xFFFFFFE0 : CmdWord) = BitVec.allOnes 32 <<< 5 := by decide
  have hv := v.isLt
  refine decide_eq_true (BitVec.eq_of_toNat_eq ?_)
  simp only [maskRow, encode]
  rw [hm, toNat_and_high, toNat_packWord]
  simp
  omega

theorem perm : Statement .perm := fun _ => by decide

theorem abs : Statement .abs := fun _ => by decide

theorem sqz (v : BitVec 16) : Statement (.sqz v) := fun _ => by
  have hm : (0xFFFF0000 : CmdWord) = BitVec.allOnes 32 <<< 16 := by decide
  have hv := v.isLt
  refine decide_eq_true (BitVec.eq_of_toNat_eq ?_)
  simp only [maskRow, encode]
  rw [hm, toNat_and_high, toNat_packWord]
  simp
  omega

theorem hash : Statement .hash := fun _ => by decide

theorem hashX : Statement .hashX := fun _ => by decide

theorem sel : Statement .sel := fun _ => by decide

theorem selX : Statement .selX := fun _ => by decide

theorem dclr : Statement .dclr := fun _ => by decide

theorem tin (v : BitVec 8) : Statement (.tin v) := fun _ => by
  have hm : (0xFFFFFF00 : CmdWord) = BitVec.allOnes 32 <<< 8 := by decide
  have hv := v.isLt
  refine decide_eq_true (BitVec.eq_of_toNat_eq ?_)
  simp only [maskRow, encode]
  rw [hm, toNat_and_high, toNat_packWord]
  simp
  omega

theorem tout (v : BitVec 8) : Statement (.tout v) := fun _ => by
  have hm : (0xFFFFFF00 : CmdWord) = BitVec.allOnes 32 <<< 8 := by decide
  have hv := v.isLt
  refine decide_eq_true (BitVec.eq_of_toNat_eq ?_)
  simp only [maskRow, encode]
  rw [hm, toNat_and_high, toNat_packWord]
  simp
  omega

theorem aclr : Statement .aclr := fun _ => by decide

theorem apush : Statement .apush := fun _ => by decide

theorem enc : Statement .enc := fun _ => by decide

theorem encX : Statement .encX := fun _ => by decide

theorem dec : Statement .dec := fun _ => by decide

theorem decX : Statement .decX := fun _ => by decide

theorem rget (v : BitVec 16) : Statement (.rget v) := fun _ => by
  have hm : (0xFFFF0000 : CmdWord) = BitVec.allOnes 32 <<< 16 := by decide
  have hv := v.isLt
  refine decide_eq_true (BitVec.eq_of_toNat_eq ?_)
  simp only [maskRow, encode]
  rw [hm, toNat_and_high, toNat_packWord]
  simp
  omega

end TableRow

end Sys2Proof.Laws
end

