-- ==== Sys2Proof/Tests/Slice0.lean ====
section
/-! SUPPORT. The model's own tests, with expected values from spec/95_test_vectors.md (named in each comment), and the
witnesses that the hypotheses of the obligations can be met. -/

namespace Sys2Proof.Tests

open Sys2Proof Sys2Proof.Machine

/-! ### Helpers -/

/-- The smallest block R9 allows: `BUF_CAP = 66`, `LIST_CAP = 1`. -/
def small : Params := { bufCap := some 66, listCap := 1 }

/-- Right after reset of the smallest block. -/
def base : State := State.resetWith small

/-- The state one pushed word leaves. No step of this machine stops, so the other arms do not matter. -/
def after (w : CmdWord) (s : State) : State :=
  match step (s.withProgram [w]) with
  | .next t => t
  | .fault _ => s
  | .refused _ => s

/-- A state of the smallest block at every limit: buffers and lists full, `SPOS = 136`, `CP` about to wrap. -/
def full : State :=
  { base with
    spos := 136, ibuf := List.replicate 66 0x41, obuf := List.replicate 66 0x07, ityp := [0], otyp := [0]
    argv := [List.replicate 66 0x30], resv := [[0x68, 0x69]], selr := #v[0xa9, 0x05, 0x9c, 0xbb], selv := true
    cp := 0xFFFFFFFF }

/-- After `XFER 1` from reset (vector F1). -/
def latched : State := { base with err := true, ecode := 10, ecmd := 0x04000001, ecp := 0, cp := 1 }

/-- A descriptor with one input and its staged argument, in an unbounded block. -/
def staged (tag : Byte) (arg : List Byte) : State :=
  { State.reset with selr := #v[0x14, 0xbc, 0xc4, 0x35], selv := true, ityp := [tag], otyp := [tag], argv := [arg] }

/-- A payload in `IBUF` and one declared output, in an unbounded block. -/
def payload (tag : Byte) (p : List Byte) : State := { State.reset with otyp := [tag], ibuf := p }

/-- `"abc"` -/
def abc : List Byte := [0x61, 0x62, 0x63]

/-- Vector F11: an `address[]` of six zero addresses. -/
def sixAddresses : List Byte := wordBytes 32 ++ wordBytes 6 ++ zeros 192

/-! ### Well-formedness: the one check, and the ill-formed term it refuses -/

theorem test_wf_prnd_23 : wellFormed (.prnd 23) = true := by decide
theorem test_wf_prnd_24_refused : wellFormed (.prnd 24) = false := by decide
theorem test_wf_prnd_31_refused : wellFormed (.prnd 31) = false := by decide

/-! ### Decoding: words written out from R70 and the map of R73 (95_test_vectors.md section 2.1) -/

theorem test_decode_control : decode 0x00000000 = some .nop ∧ decode 0x01000000 = some .clrerr
    ∧ decode 0x02000000 = some .iclr ∧ decode 0x030000FF = some (.iput 255) ∧ decode 0x03000061 = some (.iput 0x61)
    ∧ decode 0x0400FFFF = some (.xfer 65535) ∧ decode 0x04000004 = some (.xfer 4) := by decide

theorem test_decode_permutation : decode 0x10000000 = some .pclr ∧ decode 0x11000017 = some (.prnd 23)
    ∧ decode 0x11000000 = some (.prnd 0) ∧ decode 0x12000000 = some .perm := by decide

theorem test_decode_sponge : decode 0x20000000 = some .abs ∧ decode 0x2100FFFF = some (.sqz 65535)
    ∧ decode 0x21000068 = some (.sqz 104) ∧ decode 0x22000000 = some .hash ∧ decode 0x22800000 = some .hashX := by decide

theorem test_decode_descriptor : decode 0x30000000 = some .sel ∧ decode 0x30800000 = some .selX
    ∧ decode 0x31000000 = some .dclr ∧ decode 0x320000FF = some (.tin 255) ∧ decode 0x33000009 = some (.tout 9)
    ∧ decode 0x34000000 = some .aclr ∧ decode 0x35000000 = some .apush := by decide

theorem test_decode_codec : decode 0x40000000 = some .enc ∧ decode 0x40800000 = some .encX
    ∧ decode 0x50000000 = some .dec ∧ decode 0x50800000 = some .decX ∧ decode 0x51000000 = some (.rget 0)
    ∧ decode 0x5100FFFF = some (.rget 65535) := by decide

theorem test_decode_illegal : ([0x00000001, 0x00800000, 0x01000001, 0x03000161, 0x11000018, 0x1100001F] ++
    [0x11000020, 0x22000001, 0x22010000, 0x21800000, 0x32000100, 0x05000000] ++
    [0x13000000, 0x41000000, 0xFFFFFFFF, 0x40000001, 0x35800000, 0x12400000] : List CmdWord).all
      (fun w => (decode w).isNone) = true := by decide

/-- Vector T3's word list from its assembly text (R78, R79). -/
theorem test_assemble_T3 : assemble
    [.desc [0x68, 0x28, 0x73, 0x74, 0x72, 0x69, 0x6E, 0x67, 0x29] [4] [4], .command .aclr, .arg [0x68, 0x69], .command .enc,
      .command (.xfer 4), .command .dec, .command (.rget 0)] =
    [0x31000000, 0x02000000, 0x03000068, 0x03000028, 0x03000073, 0x03000074, 0x03000072, 0x03000069] ++
    [0x0300006E, 0x03000067, 0x03000029, 0x30000000, 0x32000004, 0x33000004, 0x34000000, 0x02000000] ++
    [0x03000068, 0x03000069, 0x35000000, 0x40000000, 0x04000004, 0x50000000, 0x51000000] := by decide

/-! ### Buffer and control -/

theorem test_nop : after 0x00000000 full = { full with cp := 0 } := by decide

/-- Vector T4, word 13. -/
theorem test_clrerr : after 0x01000000 latched = { base with cp := 2 } := by decide

/-- Vector T4, words 10 to 12: only `CP` moves; a stray operand bit is not CLRERR. -/
theorem test_latched_words_are_skipped : after 0x21000004 latched = { latched with cp := 2 }
    ∧ after 0xFF000000 latched = { latched with cp := 2 } ∧ after 0x01000001 latched = { latched with cp := 2 } := by decide

theorem test_iclr : after 0x02000000 full = { full with ibuf := [], cp := 0 } := by decide

/-- Vector T1, words 1 to 2. -/
theorem test_iput : after 0x03000062 { base with ibuf := [0x61] } = { base with ibuf := [0x61, 0x62], cp := 1 } := by decide

/-- Vector F6, its last word. -/
theorem test_iput_full : after 0x03000041 { full with cp := 66 } =
    { full with err := true, ecode := 9, ecmd := 0x03000041, ecp := 66, cp := 67 } := by decide

/-- R214: the tail from byte `k`. -/
theorem test_xfer : (after 0x04000001 { base with obuf := [1, 2, 3] }).ibuf = [2, 3] := by decide

/-- Vector F1. -/
theorem test_xfer_range : after 0x04000001 base = latched := by decide

/-- Vector F4. -/
theorem test_illegal_word : after 0x11000018 { base with cp := 1 } =
    { base with err := true, ecode := 8, ecmd := 0x11000018, ecp := 1, cp := 2 } := by decide

/-! ### Permutation engine -/

/-- Vector P1. -/
theorem test_rol64 : rol64 0x0123456789ABCDEF 36 = 0x9ABCDEF012345678 ∧ rol64 0x0123456789ABCDEF 62 = 0xC048D159E26AF37B
    ∧ rol64 1 64 = 1 ∧ rol64 0x8000000000000000 1 = 1 := by decide

/-- The test state of vector P2. -/
def laneT : Lanes := Vector.ofFn fun i => BitVec.ofNat 64 ((i.val + 1) * 0x9E3779B97F4A7C15)

/-- R100: the two pairs of equal constants it points out, and the ends of both columns (`RC[0]` and `RC[23]` are also vector P5's). -/
theorem test_roundConstants : roundConstants[6] = roundConstants[20] ∧ roundConstants[5] = roundConstants[22]
    ∧ roundConstants[0] = 1 ∧ roundConstants[11] = 0x8000000A ∧ roundConstants[12] = 0x8000808B
    ∧ roundConstants[23] = 0x8000000080008008 := by decide +kernel

/-- Vector P2: theta, rho and pi, chi on the state without symmetry. -/
theorem test_steps_of_P2 : (theta laneT)[7] = 0x9BB56F7CD694DB36 ∧ (theta laneT)[20] = 0x91FCFBC9FDA3C24C
    ∧ (rhopi laneT)[10] = 0x78DDE6E5FD29F054 ∧ (rhopi laneT)[23] = 0x4F82A1C6EF372FE9 ∧ (chi laneT)[4] = 0x375DE2DDFCE0EC43
    ∧ (chi laneT)[19] = 0x5CDD863DF2818D81 := by decide +kernel

theorem test_pclr : (after 0x10000000 { full with lanes := laneT }).lanes = Vector.replicate 25 0
    ∧ (after 0x10000000 full).spos = 0 := by decide +kernel

/-- Vector P2, one round with index 7. -/
theorem test_prnd : let t := (after 0x11000007 { base with lanes := laneT }).lanes
    t[0] = 0x76D70E555BF5D1A9 ∧ t[13] = 0x9B4FEDCD40DC6F9A ∧ t[24] = 0x5E049C5441805247 := by decide +kernel

/-- Vector P3. -/
theorem test_perm : let t := (after 0x12000000 base).lanes
    t[0] = 0xF1258F7940E1DDE7 ∧ t[1] = 0x84D5CCF933C0478A ∧ t[24] = 0xEAF1FF7B5CECA249 := by decide +kernel

/-! ### Sponge controller -/

/-- Vector S1 at its edges. -/
theorem test_pad : (pad (List.replicate 134 0x61)).drop 134 = [0x01, 0x80] ∧ (pad (List.replicate 135 0x61)).drop 135 = [0x81]
    ∧ (pad (List.replicate 136 0x61)).drop 136 = 0x01 :: zeros 134 ++ [0x80] := by decide +kernel

/-- Vector S6: two lanes of the state after absorbing `"abc"`, and `SPOS`. -/
theorem test_abs : let t := after 0x20000000 { base with ibuf := abc, spos := 9 }
    t.lanes[0] = 0x4FA945EA7A65034E ∧ t.lanes[24] = 0xDAFF5E6DCD41BD9A ∧ t.spos = 0 := by decide +kernel

/-- Vector S3: the beginning of the digest of `"abc"` as text. -/
theorem test_hashX : let t := after 0x22800000 { base with ibuf := abc, lanes := laneT }
    t.obuf.take 10 = [0x30, 0x78, 0x34, 0x65, 0x30, 0x33, 0x36, 0x35, 0x37, 0x61] ∧ t.obuf.length = 66 ∧ t.spos = 32 := by
  decide +kernel

/-- Vector T5, word 5, and vector S8: lane 4 begins at byte 32, nothing is permuted. -/
theorem test_sqz : let s := after 0x21000068 { State.reset with lanes := zeroLanes.set 4 0xBBA2151EAC382C81, spos := 32 }
    s.obuf.take 9 = [0x81, 0x2c, 0x38, 0xac, 0x1e, 0x15, 0xa2, 0xbb, 0x00] ∧ s.spos = 136
    ∧ (after 0x21000000 s).spos = 136 ∧ (after 0x21000000 s).obuf = [] := by decide +kernel

/-- Vectors F10 and F10b. -/
theorem test_sqz_capacity : (after 0x21000043 base).ecode = 9 ∧ (after 0x21000043 base).obuf = []
    ∧ (after 0x21000042 base).obuf = zeros 66 ∧ (after 0x21000042 base).spos = 66 := by decide +kernel

/-! ### Descriptor and staging -/

/-- Vector L1.3: `"transfer(address,uint256)"`, the one number of the source. -/
theorem test_sel : let sig : List Byte := [0x74, 0x72, 0x61, 0x6e, 0x73, 0x66, 0x65, 0x72, 0x28, 0x61, 0x64, 0x64, 0x72] ++
      [0x65, 0x73, 0x73, 0x2c, 0x75, 0x69, 0x6e, 0x74, 0x32, 0x35, 0x36, 0x29]
    (after 0x30000000 { base with ibuf := sig }).selr = #v[0xa9, 0x05, 0x9c, 0xbb] := by decide +kernel

theorem test_dclr : after 0x31000000 full =
    { full with selr := #v[0, 0, 0, 0], selv := false, ityp := [], otyp := [], cp := 0 } := by decide

theorem test_tin : (after 0x320000FF { base with cp := 1 }).ityp = [255] := by decide

/-- Vector F9. -/
theorem test_tin_full : after 0x32000000 { base with ityp := [0], cp := 1 } =
    { base with ityp := [0], err := true, ecode := 9, ecmd := 0x32000000, ecp := 1, cp := 2 } := by decide

theorem test_tout : (after 0x33000004 base).otyp = [4] ∧ (after 0x33000004 full).ecode = 9 := by decide

theorem test_aclr : (after 0x34000000 full).argv = [] := by decide

/-- Vector T3, word 18. -/
theorem test_apush : (after 0x35000000 { base with ibuf := [0x68, 0x69] }).argv = [[0x68, 0x69]]
    ∧ (after 0x35000000 full).ecode = 9 := by decide

/-! ### Codec -/

/-- Vector T4, word 18. -/
theorem test_enc : (after 0x40000000 (staged 3 [0x01])).obuf = [0x14, 0xbc, 0xc4, 0x35] ++ zeros 31 ++ [0x01] := by decide +kernel

/-- Vectors F7 and F7b: 68 bytes do not fit 66, and fit 68; the output buffer is kept. -/
theorem test_enc_capacity : let s := { staged 0 [] with ityp := [0, 0], argv := [[], []], obuf := [1, 2, 3, 4] }
    (after 0x40000000 { s with params := ⟨some 66, 2⟩ }).ecode = 9
    ∧ (after 0x40000000 { s with params := ⟨some 66, 2⟩ }).obuf = [1, 2, 3, 4]
    ∧ (after 0x40000000 { s with params := ⟨some 68, 2⟩ }).obuf.length = 68 := by decide +kernel

/-- Vector E3 as text; and T4, word 9. -/
theorem test_encX : (after 0x40800000 { State.reset with selv := true, selr := #v[0x06, 0xfd, 0xde, 0x03] }).obuf =
      [0x30, 0x78, 0x30, 0x36, 0x66, 0x64, 0x64, 0x65, 0x30, 0x33]
    ∧ (after 0x40800000 (staged 3 [0x02])).ecode = 12 := by decide +kernel

/-- Vectors D8b and D8c. -/
theorem test_dec : let p := wordBytes 32 ++ wordBytes 5 ++ [0x68, 0x65, 0x6c, 0x6c, 0x6f]
    (after 0x50000000 (payload 4 p)).resv = [[0x68, 0x65, 0x6c, 0x6c, 0x6f]]
    ∧ (after 0x50000000 (payload 4 (p.take 68))).ecode = 6 := by decide +kernel

/-- Vector D6, the word 257, and vector D11, the unsupported tag. -/
theorem test_dec_bool : (after 0x50000000 (payload 3 (wordBytes 257))).resv = [[0x01]]
    ∧ (after 0x50000000 (payload 9 (wordBytes 257))).ecode = 5 := by decide +kernel

/-- Vector D13. -/
theorem test_decX : (after 0x50800000 (payload 3 [0x30, 0x78])).resv = []
    ∧ (after 0x50800000 (payload 3 [0x30, 0x78, 0x30])).ecode = 12
    ∧ (after 0x50800000 (payload 3 [0x30, 0x78, 0x30, 0x30])).ecode = 6 := by decide +kernel

/-- Vector T3, word 22, and vector F3. -/
theorem test_rget : (after 0x51000000 full).obuf = [0x68, 0x69] ∧ (after 0x51000000 base).ecode = 10 := by decide

/-! ### Witnesses: encoding and step -/

theorem witness_DecodeInvertsEncode : wellFormed (.prnd 23) = true ∧ wellFormed (.iput 255) = true
    ∧ wellFormed (.rget 65535) = true := by decide

theorem witness_AcceptedWordIsItsCommandsWord : decode 0x11000017 = some (.prnd 23) := by decide

/-- One word for each way to be illegal, each next to a legal one (`test_decode_*`). -/
theorem witness_IllegalWordsAreExactlyTheListed : decode 0x05000000 = none ∧ decode 0x00010000 = none ∧ decode 0x21800000 = none
    ∧ decode 0x03000100 = none ∧ decode 0x11000018 = none ∧ decode 0x10000001 = none := by decide

theorem witness_MaskTableAgreesWithDecoder : (.prnd 0 : Instr) ∈ tableRows
    ∧ (0x11000017 : CmdWord) &&& (maskRow (.prnd 0)).mask = (maskRow (.prnd 0)).pattern
    ∧ (0x11000017 : CmdWord).toNat % 32 ≤ 23 := by decide

theorem witness_StepRunsTheDecodedCommand : (base.withProgram [0x02000000]).moves = .push 0x02000000 :: []
    ∧ decode 0x02000000 = some .iclr := by decide

theorem witness_IllegalWordRaisesIllegalCommand : (full.withProgram [0xFFFFFFFF]).moves = .push 0xFFFFFFFF :: []
    ∧ decode 0xFFFFFFFF = none ∧ full.err = false := by decide

theorem witness_LatchedWordsOnlyAdvanceCp : (latched.withProgram [0x01000001]).moves = .push 0x01000001 :: []
    ∧ latched.err = true ∧ (0x01000001 : CmdWord) ≠ 0x01000000 := by decide

theorem witness_EveryWordTakenAdvancesCp : (full.withProgram [0]).moves = .push 0 :: [] := by decide

theorem witness_EveryStateHasANextState : base.moves = [] := by decide

theorem witness_ResetMoveGivesTheTabulatedValues :
    ({ full with moves := [.assertReset, .push 0] } : State).moves = .assertReset :: [.push 0] := by decide

theorem witness_ResetStateIsInRange : small.legal = true ∧ Params.unbounded.legal = true := by decide

/-- The smallest block right after reset is in range. -/
theorem base_inv : base.Inv := by constructor <;> decide

/-- A state at every limit is in range. -/
theorem full_inv : full.Inv := by constructor <;> decide

/-- A latched state is in range. -/
theorem latched_inv : latched.Inv := by constructor <;> decide

theorem witness_StepKeepsTheStateInRange : (full.withProgram [0x03000041]).Inv ∧ (latched.withProgram [0x01000000]).Inv
    ∧ ∃ t, step (full.withProgram [0x03000041]) = .next t := by
  refine ⟨?_, ?_, _, rfl⟩ <;> constructor <;> decide

/-! ### Witnesses: faults and the access table -/

theorem witness_FaultsArePrecise : full.err = false ∧ ∃ t, exec (.rget 1) full = .next t ∧ t.err = true := ⟨rfl, _, rfl, rfl⟩

theorem witness_FaultCodesAreTheTabulated : wellFormed (.rget 1) = true ∧ full.err = false
    ∧ ∃ t, exec (.rget 1) full = .next t ∧ t.err = true ∧ t.ecode = 10 := ⟨by decide, rfl, _, rfl, rfl, rfl⟩

theorem witness_FaultFreeCommandsComplete : full.err = false ∧ (23 : BitVec 5).toNat ≤ 23
    ∧ (.perm : Instr) ∈ [.nop, .clrerr, .iclr, .pclr, .perm, .abs, .hash, .hashX, .sel, .selX, .dclr, .aclr] := by decide

theorem witness_FaultsAreNotRetriable : full.err = false ∧ ∃ t u, exec (.rget 1) full = .next t ∧ t.err = true
    ∧ exec .clrerr t = .next u := ⟨rfl, _, _, rfl, rfl, rfl⟩

theorem witness_ClrerrRestoresTheStateBeforeTheFault : full.Inv ∧ full.err = false
    ∧ ∃ t, exec .apush full = .next t ∧ t.err = true := ⟨full_inv, rfl, _, rfl, rfl⟩

theorem witness_WritesAreTheTabulated : base.err = false ∧ ∃ t, exec (.iput 1) base = .next t ∧ t.err = false :=
  ⟨rfl, _, rfl, rfl⟩

/-- Two states that agree in what IPUT reads and in little else; and one command that faults on both. -/
theorem witness_ReadsAreTheTabulated : full.err = false ∧ ({ base with ibuf := full.ibuf } : State).params = full.params
    ∧ (∀ p ∈ reads (.iput 1), Part.same full { base with ibuf := full.ibuf } p)
    ∧ (∃ t, exec (.iput 1) full = .next t) ∧ ∃ t, exec (.iput 1) { base with ibuf := full.ibuf } = .next t := by
  refine ⟨rfl, rfl, ?_, ⟨_, rfl⟩, _, rfl⟩
  simp [reads, Part.same]

theorem witness_RepeatedCommandsAreIdempotent : idempotent (.rget 1) = true ∧ ∃ t, exec (.rget 1) full = .next t :=
  ⟨rfl, _, rfl⟩

/-- `SPOS + n = 136` exactly, and a state that differs in a capacity lane. -/
theorem witness_CapacityIsNotCopiedOut : let s := { full with spos := 104 }
    s.err = false ∧ s.spos + (32 : BitVec 16).toNat ≤ 136
    ∧ (∀ k < 136, stateByte (s.lanes.set 17 5) k = stateByte s.lanes k) ∧ s.lanes.set 17 5 ≠ s.lanes
    ∧ (.hash : Instr) ∈ [.hash, .hashX, .sel, .selX] := by decide +kernel

/-! ### Witnesses: buffers, permutation, sponge -/

/-- What every statement about a command that always completes assumes. -/
theorem witness_unlatched : base.err = false ∧ full.err = false := by decide

theorem witness_IputAppendsOneByte : base.params.bufCap ≠ some base.ibuf.length
    ∧ full.params.bufCap = some full.ibuf.length := by decide

/-- `k = OLEN`, the largest that completes, and one more. -/
theorem witness_XferMovesTheOutputTail : (66 : BitVec 16).toNat ≤ full.obuf.length ∧ full.obuf.length < (67 : BitVec 16).toNat := by
  decide

theorem witness_PrndAppliesOneRound : (23 : BitVec 5).toNat < 24 ∧ 24 ≤ (24 : BitVec 5).toNat := by decide

theorem witness_PaddingShape : (List.replicate 135 (0 : Byte)).length % 136 = 135
    ∧ (List.replicate 134 (0 : Byte)).length % 136 ≠ 135 := by decide +kernel

theorem witness_AbsorbXorsTheRatePart : (List.replicate 136 (1 : Byte)).length = 136 := by decide +kernel

theorem witness_SqueezeEmitsTheOutputStream : full.spos ≤ 136 ∧ base.spos ≤ 136 := by decide

/-- `n = BUF_CAP` and one more. -/
theorem witness_SqzEmitsOrFaults : full.params.bufFits (66 : BitVec 16).toNat = true
    ∧ full.params.bufFits (67 : BitVec 16).toNat = false := by decide

theorem witness_SuccessiveSqueezesContinueTheStream : (66 : BitVec 16).toNat = (6 : BitVec 16).toNat + (60 : BitVec 16).toNat
    ∧ full.params.bufFits (66 : BitVec 16).toNat = true := by decide

theorem witness_HashIsPclrAbsSqz : base.err = false ∧ base.params.legal = true := by decide

/-! ### Witnesses: descriptor, staging, codec -/

theorem witness_TypeTagsAreAppended : base.ityp.length ≠ base.params.listCap ∧ full.ityp.length = full.params.listCap
    ∧ base.otyp.length ≠ base.params.listCap ∧ full.otyp.length = full.params.listCap := by decide

theorem witness_ArgumentsAreStaged : base.argv.length ≠ base.params.listCap ∧ full.argv.length = full.params.listCap := by decide

theorem witness_WordsReadBack : 2 ^ 256 - 1 < 2 ^ 256 ∧ 2 ^ 256 ≤ 2 ^ 256 := by decide

/-- A dynamic argument, so that the tail and an offset are there. -/
theorem witness_EncWritesTheCallPayload : let s := staged 4 [0x68, 0x69]
    s.err = false ∧ s.selv = true ∧ argumentsAcceptable s = true ∧ (callPayload s).length < 2 ^ 256
    ∧ s.params.bufFits (callPayload s).length = true ∧ s.params.bufFits (hex0x (callPayload s)).length = true := by
  decide +kernel

/-- Vectors F7, F7b, F8 and F8b: two `uint256` inputs, a payload of 68 bytes and a text of 138, each one byte too long for the
buffer and exactly as long as it. -/
theorem witness_EncWritesTheCallPayload_capacity : let s := { staged 0 [] with ityp := [0, 0], argv := [[], []] }
    s.err = false ∧ s.selv = true ∧ argumentsAcceptable s = true ∧ (callPayload s).length = 68
    ∧ (hex0x (callPayload s)).length = 138
    ∧ Params.bufFits ⟨some 67, 1⟩ 68 = false ∧ Params.bufFits ⟨some 68, 1⟩ 68 = true
    ∧ Params.bufFits ⟨some 137, 1⟩ 138 = false ∧ Params.bufFits ⟨some 138, 1⟩ 138 = true := by decide +kernel

theorem witness_EncPayloadLength : (staged 3 [0x01]).err = false ∧ (∀ tag ∈ (staged 3 [0x01]).ityp, (typeOfTag tag).isStatic = true)
    ∧ ∃ t, exec .enc (staged 3 [0x01]) = .next t ∧ t.err = false :=
  ⟨rfl, by decide, _, rfl, rfl⟩

theorem witness_EncChecksSelectorThenArity : base.err = false ∧ base.selv = false ∧ full.err = false ∧ full.selv = true
    ∧ ({ full with argv := [] } : State).argv.length ≠ full.ityp.length := by decide

/-- Vector X9: the one argument is a bool of value 2; and vector X8 with a good argument before the bad one. -/
theorem witness_EncReportsTheFirstBadArgument :
    let s := { staged 3 [0x01] with ityp := [3, 6], argv := [[0x01], []] }
    s.err = false ∧ s.selv = true ∧ s.argv.length = s.ityp.length
    ∧ 32 * s.ityp.length + (tailSegments s).flatten.length < 2 ^ 256
    ∧ acceptable (typeOfTag 3) [0x01] = true ∧ acceptable (typeOfTag 6) [] = false
    ∧ acceptable (typeOfTag 3) [0x02] = false ∧ acceptable (typeOfTag 0) (0x01 :: zeros 32) = false
    ∧ acceptable (typeOfTag 2) [0x62] = false ∧ acceptable (typeOfTag 1) [] = false ∧ acceptable (typeOfTag 5) [0x2C] = false := by
  decide +kernel

theorem witness_EmptyPayloadDecodesToNothing : (payload 9 []).ibuf = [] ∧ (payload 9 [0x30, 0x78]).ibuf = [0x30, 0x78] := by
  decide

/-- Vectors D9d and D13: a payload of one word, as bytes and as text. -/
theorem witness_DecStagesEveryResult : let s := payload 4 (wordBytes 0)
    s.err = false ∧ wordBytes 0 ≠ [] ∧ outputReadable s.params (wordBytes 0) 0 (typeOfTag 4) = true
    ∧ unhex (hex0x (wordBytes 0)) = some (wordBytes 0) := by decide +kernel

/-- Vectors D5, D8c, D11 and F11: a payload for each of the fault's three codes, at the edge of its range. -/
theorem witness_DecReportsTheFirstBadOutput :
    rangesInside (zeros 31) 0 (typeOfTag 0) = false ∧ rangesInside (wordBytes 1) 0 (typeOfTag 4) = false
    ∧ rangesInside (zeros 32) 0 (typeOfTag 9) = true ∧ supported (typeOfTag 9) = false
    ∧ rangesInside sixAddresses 0 (typeOfTag 5) = true
    ∧ outputReadable { bufCap := some 256, listCap := 1 } sixAddresses 0 (typeOfTag 5) = false
    ∧ outputReadable { bufCap := some 257, listCap := 1 } sixAddresses 0 (typeOfTag 5) = true := by decide +kernel

theorem witness_DecXReadsHexText : unhex [0x30, 0x78, 0x30] = none ∧ unhex [0x30, 0x78, 0x30, 0x30] = some [0] := by decide

theorem witness_RgetCopiesAResult : (0 : BitVec 16).toNat < full.resv.length ∧ full.resv.length ≤ (1 : BitVec 16).toNat := by decide

/-- Vector T3: one dynamic argument; its canonical form fits. -/
theorem witness_DecodeOfEncodeIsCanonical : let s := staged 4 [0x68, 0x69]
    s.err = false ∧ s.otyp = s.ityp ∧ s.params.bufFits (canon (typeOfTag 4) [0x68, 0x69]).length = true
    ∧ ∃ t, exec .enc s = .next t ∧ t.err = false := ⟨rfl, rfl, by decide, _, rfl, rfl⟩

end Sys2Proof.Tests
end

/-! SUPPORT. What the decoder accepts (R73, R80). -/

namespace Sys2Proof

/-! ### The decoder accepts a word only as the word of its command (R73, R80) -/

theorem plainForm_eq_some_iff {x : BitVec 1} {imm : BitVec 16} {i j : Instr} :
    plainForm x imm i = some j ↔ x = 0 ∧ imm = 0 ∧ i = j := by
  rw [plainForm, Option.ite_none_right_eq_some, Option.some.injEq, and_assoc]

theorem textForm_eq_some_iff {x : BitVec 1} {imm : BitVec 16} {i iX j : Instr} :
    textForm x imm i iX = some j ↔ imm = 0 ∧ (x = 0 ∧ i = j ∨ x = 1 ∧ iX = j) := by
  rcases bit_cases x with rfl | rfl <;> simp [textForm]

theorem byteForm_eq_some_iff {x : BitVec 1} {imm : BitVec 16} {mk : BitVec 8 → Instr} {j : Instr} :
    byteForm x imm mk = some j ↔ x = 0 ∧ imm.extractLsb' 8 8 = 0 ∧ mk (imm.extractLsb' 0 8) = j := by
  rw [byteForm, Option.ite_none_right_eq_some, Option.some.injEq, and_assoc]

theorem halfForm_eq_some_iff {x : BitVec 1} {imm : BitVec 16} {mk : BitVec 16 → Instr} {j : Instr} :
    halfForm x imm mk = some j ↔ x = 0 ∧ mk imm = j := by
  rw [halfForm, Option.ite_none_right_eq_some, Option.some.injEq]

theorem roundForm_eq_some_iff {x : BitVec 1} {imm : BitVec 16} {j : Instr} :
    roundForm x imm = some j ↔ x = 0 ∧ imm.extractLsb' 5 11 = 0 ∧ (imm.extractLsb' 0 5).toNat ≤ 23
      ∧ .prnd (imm.extractLsb' 0 5) = j := by
  rw [roundForm, Option.ite_none_right_eq_some, Option.some.injEq, and_assoc, and_assoc]

/-- The fields of an accepted word are those of its command's word. The cases are the arms of `decodeOpc`, in order,
grouped by the form of their operand (R71). -/
theorem packWord_of_decodeOpc {opc : BitVec 8} {x : BitVec 1} {imm : BitVec 16} {i : Instr}
    (h : decodeOpc opc x imm = some i) : encode i = packWord opc x 0 imm ∧ wellFormed i = true := by
  have hopc : opc = BitVec.ofNat 8 opc.toNat := by simp
  rw [hopc]
  unfold decodeOpc at h
  split at h
  case h_1 | h_2 | h_3 | h_6 | h_8 | h_9 | h_13 | h_16 | h_17 =>
    rename_i ho
    obtain ⟨rfl, rfl, rfl⟩ := plainForm_eq_some_iff.mp h
    rw [ho]; exact ⟨rfl, rfl⟩
  case h_4 | h_14 | h_15 =>
    rename_i ho
    obtain ⟨rfl, hz, rfl⟩ := byteForm_eq_some_iff.mp h
    simp [ho, encode, wellFormed, setWidth_low8_of_high_zero hz]
  case h_5 | h_10 | h_20 =>
    rename_i ho
    obtain ⟨rfl, rfl⟩ := halfForm_eq_some_iff.mp h
    rw [ho]; exact ⟨rfl, rfl⟩
  case h_7 =>
    rename_i ho
    obtain ⟨rfl, hz, hr, rfl⟩ := roundForm_eq_some_iff.mp h
    exact ⟨by simp [ho, encode, setWidth_low5_of_high_zero hz], decide_eq_true hr⟩
  case h_11 | h_12 | h_18 | h_19 =>
    rename_i ho
    obtain ⟨rfl, ⟨rfl, rfl⟩ | ⟨rfl, rfl⟩⟩ := textForm_eq_some_iff.mp h
    all_goals rw [ho]; exact ⟨rfl, rfl⟩
  case h_21 => cases h

/-- An accepted word is the word of its command, with an operand in range (R73, R80). -/
theorem encode_of_decode {w : CmdWord} {i : Instr} (h : decode w = some i) : encode i = w ∧ wellFormed i = true := by
  unfold decode at h
  split at h
  · rename_i hz
    obtain ⟨he, hw⟩ := packWord_of_decodeOpc h
    exact ⟨by rw [he, ← hz, packWord_fields], hw⟩
  · cases h

end Sys2Proof

/-! SUPPORT. Rotation (R108), words (R141), and what the codec can raise (R220). -/

namespace Sys2Proof.Machine

/-! ### Bits and bytes -/

/-- `rol64` is the library's rotation (R12, R108). -/
theorem rol64_eq_rotateLeft (v : Lane) (n : Nat) : rol64 v n = v.rotateLeft n := by
  unfold rol64
  split
  · rename_i h; simp [BitVec.rotateLeft, BitVec.rotateLeftAux, h, BitVec.ushiftRight_eq_zero]
  · rfl

/-- Settles O29: a wrapped and an unwrapped bit position of the library's rotation. -/
theorem rotationMovesEveryBit : Obligations.RotationMovesEveryBit := by
  intro v n k hk
  rw [rol64_eq_rotateLeft, BitVec.getLsbD_rotateLeft]
  by_cases hwrap : k + n % 64 < 64
  · have hpos : (k + n) % 64 = k + n % 64 := by omega
    simp [hpos, hwrap]
  · have hpos : (k + n) % 64 = k + n % 64 - 64 := by omega
    have hlow : k + n % 64 - 64 < n % 64 := by omega
    have hsrc : 64 - n % 64 + (k + n % 64 - 64) = k := by omega
    simp [hpos, hlow, hsrc]

/-- `be` reads the low `n` base-256 digits of a natural back from their bytes. -/
theorem be_map_digits (n v : Nat) :
    be ((List.range n).map fun i => BitVec.ofNat 8 (v / 256 ^ (n - 1 - i))) = v % 256 ^ n := by
  induction n generalizing v with
  | zero => simp [be, Nat.mod_one]
  | succ n ih =>
    have hinit : ((List.range n).map fun i => BitVec.ofNat 8 (v / 256 ^ (n + 1 - 1 - i)))
        = (List.range n).map fun i => BitVec.ofNat 8 (v / 256 / 256 ^ (n - 1 - i)) := by
      refine List.map_congr_left fun i hi => ?_
      have hi := List.mem_range.mp hi
      rw [Nat.div_div_eq_div_mul, ← Nat.pow_succ', show n + 1 - 1 - i = n - 1 - i + 1 by omega]
    have hlast : (BitVec.ofNat 8 (v / 256 ^ (n + 1 - 1 - n))).toNat = v % 256 := by simp
    rw [List.range_succ, List.map_append, List.map_singleton, be_append_single, hinit, ih, hlast,
      Nat.pow_succ', Nat.mod_mul]
    omega

theorem be_wordBytes {v : Nat} (h : v < 2 ^ 256) : be (wordBytes v) = v := by
  have hdigits := be_map_digits 32 v
  rw [Nat.mod_eq_of_lt (by omega)] at hdigits
  exact hdigits

theorem word_error_iff {v pos : Nat} {e : Raise} :
    word v pos = .error e ↔ Config.wordLimit ≤ v ∧ e = ⟨.overflowError, pos⟩ := by
  unfold word
  split
  · rename_i h; simp only [reduceCtorEq, false_iff]; omega
  · rename_i h; simp [Nat.not_lt.mp h, @eq_comm _ e]

/-- Settles O49: the 32 digits of `v` read back as `v mod 256^32`. -/
theorem wordsReadBack : Obligations.WordsReadBack := by
  intro v pos
  constructor
  · intro h
    exact ⟨wordBytes v, word_ok_iff.mpr ⟨h, rfl⟩, length_wordBytes v, be_wordBytes h⟩
  · intro h
    exact word_error_iff.mpr ⟨h, rfl⟩

/-! ### What the codec's loops can raise (R220) -/

/-- A raise that the command of an accepted word can make: not `IllegalCommand`, which is an illegal word's (R222), and
at position 0 for the faults that have no position (R220). -/
def Raise.OfCommand (e : Raise) : Prop := e.kind ≠ .illegalCommand ∧ (positionless e.kind = true → e.pos = 0)

/-- A fault that carries a position is a command's, whatever the position: `IllegalCommand` carries none. -/
theorem Raise.ofCommand_of_positioned {e : Raise} (h : positionless e.kind = false) : e.OfCommand :=
  ⟨fun hk => by simp [hk, positionless] at h, fun hp => by simp [h] at hp⟩

theorem Raise.ofCommand_raise0 {k : FaultKind} (h : k ≠ .illegalCommand) : (raise0 k).OfCommand :=
  ⟨h, fun _ => rfl⟩

theorem encAddr_error_iff {a : List Byte} {i : Nat} {e : Raise} :
    encAddr a i = .error e ↔ unhexExact 40 a = none ∧ e = ⟨.invalidAddressError, i⟩ := by
  unfold encAddr; cases unhexExact 40 a <;> simp [@eq_comm _ e]

theorem encB32_error_iff {a : List Byte} {i : Nat} {e : Raise} :
    encB32 a i = .error e ↔ unhexExact 64 a = none ∧ e = ⟨.invalidLengthError, i⟩ := by
  unfold encB32; cases unhexExact 64 a <;> simp [@eq_comm _ e]

theorem positioned_of_word_error {v pos : Nat} {e : Raise} (h : word v pos = .error e) :
    positionless e.kind = false := by
  obtain ⟨_, rfl⟩ := word_error_iff.mp h; rfl

theorem positioned_of_encBool_error {a : List Byte} {i : Nat} {e : Raise} (h : encBool a i = .error e) :
    positionless e.kind = false := by
  unfold encBool at h
  split at h
  · split at h
    · exact positioned_of_word_error h
    · cases h; rfl
  · cases h; rfl

theorem positioned_of_encAddrs_error {i : Nat} {es : List (List Byte)} {e : Raise} (h : encAddrs i es = .error e) :
    positionless e.kind = false := by
  induction es with
  | nil => cases h
  | cons x xs ih =>
    unfold encAddrs at h
    split at h
    · rename_i r hx
      cases h
      obtain ⟨_, rfl⟩ := encAddr_error_iff.mp hx
      rfl
    · split at h
      · rename_i r hxs; cases h; exact ih hxs
      · cases h

theorem positioned_of_encString_error {a : List Byte} {i off : Nat} {e : Raise} (h : encString a i off = .error e) :
    positionless e.kind = false := by
  unfold encString at h
  split at h
  · rename_i hw; cases h; exact positioned_of_word_error hw
  · split at h
    · rename_i hw; cases h; exact positioned_of_word_error hw
    · cases h

theorem positioned_of_encArray_error {a : List Byte} {i off : Nat} {e : Raise} (h : encArray a i off = .error e) :
    positionless e.kind = false := by
  unfold encArray at h
  dsimp only at h
  split at h
  · rename_i hw; cases h; exact positioned_of_word_error hw
  · split at h
    · rename_i hw; cases h; exact positioned_of_word_error hw
    · split at h
      · rename_i hw; cases h; exact positioned_of_encAddrs_error hw
      · cases h

/-- Mapping a result changes no raise. -/
theorem map_eq_error_iff {α β : Type} {f : α → β} {x : Except Raise α} {e : Raise} :
    x.map f = .error e ↔ x = .error e := by
  cases x <;> simp [Except.map]

theorem positioned_of_encArg_error {t : ValueType} {a : List Byte} {i off : Nat} {e : Raise}
    (h : encArg t a i off = .error e) : positionless e.kind = false := by
  cases t <;> simp only [encArg, map_eq_error_iff] at h
  case uint256 => exact positioned_of_word_error h
  case bytes32 => obtain ⟨_, rfl⟩ := encB32_error_iff.mp h; rfl
  case address => obtain ⟨_, rfl⟩ := encAddr_error_iff.mp h; rfl
  case bool => exact positioned_of_encBool_error h
  case string => exact positioned_of_encString_error h
  case addressArray => exact positioned_of_encArray_error h
  case unsupported => cases h; rfl

theorem positioned_of_encArgs_error {i off : Nat} {ts : List Byte} {as : List (List Byte)} {e : Raise}
    (h : encArgs i off ts as = .error e) : positionless e.kind = false := by
  induction ts generalizing i off as with
  | nil => simp [encArgs] at h
  | cons t ts ih =>
    cases as with
    | nil => simp [encArgs] at h
    | cons a as =>
      rw [encArgs] at h
      split at h
      · rename_i hr; cases h; exact positioned_of_encArg_error hr
      · split at h
        · rename_i hr; cases h; exact ih hr
        · cases h

theorem ofCommand_of_encPayload_error {s : State} {e : Raise} (h : encPayload s = .error e) : e.OfCommand := by
  unfold encPayload at h
  split at h
  · cases h; exact Raise.ofCommand_raise0 (by decide)
  · split at h
    · cases h; exact Raise.ofCommand_raise0 (by decide)
    · split at h
      · rename_i hr; cases h; exact Raise.ofCommand_of_positioned (positioned_of_encArgs_error hr)
      · cases h

theorem ofCommand_of_encInto_error {render : List Byte → List Byte} {s : State} {e : Raise}
    (h : encInto render s = .error e) : e.OfCommand := by
  rcases encInto_error_iff.mp h with h | ⟨_, _, _, rfl⟩
  · exact ofCommand_of_encPayload_error h
  · exact Raise.ofCommand_raise0 (by decide)

theorem positioned_of_decValue_error {p w : List Byte} {j : Nat} {t : ValueType} {e : Raise}
    (h : decValue p w j t = .error e) : positionless e.kind = false := by
  cases t <;> simp only [decValue, map_eq_error_iff, reduceCtorEq] at h
  case string => obtain ⟨_, rfl⟩ := rdCounted_error_iff.mp h; rfl
  case addressArray => obtain ⟨_, rfl⟩ := rdCounted_error_iff.mp h; rfl
  case unsupported => cases h; rfl

theorem ofCommand_of_decOutput_error {par : Params} {p : List Byte} {j : Nat} {tag : Byte} {e : Raise}
    (h : decOutput par p j tag = .error e) : e.OfCommand := by
  unfold decOutput at h
  split at h
  · rename_i hr
    cases h
    obtain ⟨_, rfl⟩ := rd_error_iff.mp hr
    exact Raise.ofCommand_of_positioned rfl
  · split at h
    · rename_i hr; cases h; exact Raise.ofCommand_of_positioned (positioned_of_decValue_error hr)
    · split at h
      · cases h
      · cases h; exact Raise.ofCommand_raise0 (by decide)

theorem ofCommand_of_decOutputs_error {par : Params} {p : List Byte} {j : Nat} {tags : List Byte} {e : Raise}
    (h : decOutputs par p j tags = .error e) : e.OfCommand := by
  induction tags generalizing j with
  | nil => cases h
  | cons t ts ih =>
    unfold decOutputs at h
    split at h
    · rename_i hr; cases h; exact ofCommand_of_decOutput_error hr
    · split at h
      · rename_i hr; cases h; exact ih hr
      · cases h

theorem ofCommand_of_decPayload_error {p : List Byte} {s : State} {e : Raise} (h : decPayload p s = .error e) :
    e.OfCommand := ofCommand_of_decOutputs_error (decPayload_error_iff.mp h).2

/-- What a command with a word can raise. -/
theorem ofCommand_of_effectOf_error {i : Instr} {s : State} {e : Raise} (hw : wellFormed i = true)
    (h : effectOf i s = .error e) : e.OfCommand := by
  cases i <;> simp only [effectOf, reduceCtorEq] at h
  case nop => rw [nopEffect_eq] at h; cases h
  case iclr => rw [iclrEffect_eq] at h; cases h
  case iput => obtain ⟨_, rfl⟩ := iputEffect_error_iff.mp h; exact Raise.ofCommand_raise0 (by decide)
  case xfer => obtain ⟨_, rfl⟩ := xferEffect_error_iff.mp h; exact Raise.ofCommand_raise0 (by decide)
  case pclr => rw [pclrEffect_eq] at h; cases h
  case prnd r =>
    obtain ⟨hr, _⟩ := prndEffect_error_iff.mp h
    simp [wellFormed] at hw
    omega
  case perm => rw [permEffect_eq] at h; cases h
  case abs => rw [absEffect_eq] at h; cases h
  case sqz => obtain ⟨_, rfl⟩ := sqzEffect_error_iff.mp h; exact Raise.ofCommand_raise0 (by decide)
  case hash => rw [hashEffect_eq] at h; cases h
  case hashX => rw [hashXEffect_eq] at h; cases h
  case sel => rw [selEffect_eq] at h; cases h
  case selX => rw [selXEffect_eq] at h; cases h
  case dclr => rw [dclrEffect_eq] at h; cases h
  case tin => obtain ⟨_, rfl⟩ := tinEffect_error_iff.mp h; exact Raise.ofCommand_raise0 (by decide)
  case tout => obtain ⟨_, rfl⟩ := toutEffect_error_iff.mp h; exact Raise.ofCommand_raise0 (by decide)
  case aclr => rw [aclrEffect_eq] at h; cases h
  case apush => obtain ⟨_, rfl⟩ := apushEffect_error_iff.mp h; exact Raise.ofCommand_raise0 (by decide)
  case enc => exact ofCommand_of_encInto_error h
  case encX => exact ofCommand_of_encInto_error h
  case dec => exact ofCommand_of_decPayload_error h
  case decX =>
    rcases decXEffect_error_iff.mp h with ⟨_, rfl⟩ | ⟨_, _, h⟩
    · exact Raise.ofCommand_raise0 (by decide)
    · exact ofCommand_of_decPayload_error h
  case rget => obtain ⟨_, rfl⟩ := rgetEffect_error_iff.mp h; exact Raise.ofCommand_raise0 (by decide)

/-! ### The fault codes (R220) -/

theorem faultCode_tabulated (k : FaultKind) : faultCode k ∈ [1, 2, 3, 4, 5, 6, 8, 9, 10, 11, 12] := by
  cases k <;> decide

theorem faultCode_positionless {k : FaultKind} (h : faultCode k ∈ [1, 8, 9, 10, 11]) : positionless k = true := by
  revert h; cases k <;> decide

theorem faultCode_eq_illegal_iff {k : FaultKind} : faultCode k = 8 ↔ k = .illegalCommand := by
  cases k <;> decide

end Sys2Proof.Machine

/-! SUPPORT. Every step keeps the ranges of the state (R21 to R32, R220, R222, R224). -/

namespace Sys2Proof.Machine

/-! ### The ranges of the state under the shared operations -/

theorem Params.bufFits_of_legal {p : Params} {n : Nat} (hp : p.legal = true) (hn : n ≤ 66) : p.bufFits n = true := by
  simp only [Params.legal, Bool.and_eq_true] at hp
  obtain ⟨⟨hbuf, _⟩, _⟩ := hp
  exact Params.bufFits_mono hn hbuf

theorem Params.bufFits_succ {p : Params} {n : Nat} (h : p.bufFits n = true) (hne : p.bufCap ≠ some n) :
    p.bufFits (n + 1) = true := by
  unfold Params.bufFits at h ⊢
  cases hcap : p.bufCap with
  | none => rfl
  | some c =>
    simp only [hcap, ne_eq, Option.some.injEq, decide_eq_true_eq] at h hne ⊢
    omega

theorem State.Inv.resetWith {p : Params} (hp : p.legal = true) : (State.resetWith p).Inv where
  params_legal := hp
  spos_range := Nat.zero_le _
  ibuf_fits := Params.bufFits_of_legal hp (Nat.zero_le _)
  obuf_fits := Params.bufFits_of_legal hp (Nat.zero_le _)
  selr_clear _ := rfl
  ityp_range := Nat.zero_le _
  otyp_range := Nat.zero_le _
  argv_range := Nat.zero_le _
  argv_fits := by simp
  resv_range := Nat.zero_le _
  resv_fits := by simp
  clear_unlatched _ := ⟨rfl, rfl, rfl, rfl⟩
  code_latched h := by simp at h
  epos_zero _ := rfl
  illegal_recorded h := by simp at h

/-- Settles O14: legal parameters leave room for the empty buffers and lists of the reset state. -/
theorem resetStateIsInRange : Obligations.ResetStateIsInRange :=
  ⟨fun _ hp => State.Inv.resetWith hp, State.Inv.resetWith (by decide)⟩

variable {s : State}

theorem State.Inv.withMoves (hs : s.Inv) (ms : List HostMove) : State.Inv { s with moves := ms } := { hs with }

theorem State.Inv.assertReset (hs : s.Inv) : s.assertReset.Inv :=
  (State.Inv.resetWith hs.params_legal).withMoves s.moves

theorem State.Inv.advance (hs : s.Inv) : s.advance.Inv := { hs with }

theorem State.Inv.clearFault (hs : s.Inv) : s.clearFault.Inv :=
  { hs with
    clear_unlatched := fun _ => ⟨rfl, rfl, rfl, rfl⟩
    code_latched := fun h => by simp at h
    epos_zero := fun _ => rfl
    illegal_recorded := fun h => by simp at h }

/-- A fault entry keeps the ranges when it records `IllegalCommand` for an illegal word only, and position 0 for the
faults that have none. -/
theorem State.Inv.enterFault (hs : s.Inv) {e : Raise} {w : CmdWord}
    (hill : e.kind = .illegalCommand ↔ decode w = none) (hpos : positionless e.kind = true → e.pos = 0) :
    (s.enterFault e w).Inv :=
  { hs with
    clear_unlatched := fun h => by simp at h
    code_latched := fun _ => faultCode_tabulated _
    epos_zero := fun h => by simp [eposOf, hpos (faultCode_positionless h)]
    illegal_recorded := fun _ => faultCode_eq_illegal_iff.trans hill }

/-- A taken word keeps the ranges when its effect does and its raises are those of its word. -/
theorem State.Inv.of_takeCommand (hs : s.Inv) {w : CmdWord} {f : State → Except Raise State} {t : State}
    (hok : ∀ u, f s = .ok u → u.Inv)
    (herr : ∀ e, f s = .error e →
      (e.kind = .illegalCommand ↔ decode w = none) ∧ (positionless e.kind = true → e.pos = 0))
    (h : takeCommand w f s = .next t) : t.Inv := by
  rcases takeCommand_cases h with ⟨_, rfl⟩ | ⟨u, _, hu, rfl⟩ | ⟨e, _, he, rfl⟩
  · exact hs.advance
  · exact (hok u hu).advance
  · obtain ⟨hill, hpos⟩ := herr e he
    exact hs.enterFault hill hpos

/-! ### The ranges of the state under the commands' effects -/

theorem State.Inv.withIbuf (hs : s.Inv) {b : List Byte} (hb : s.params.bufFits b.length = true) :
    State.Inv { s with ibuf := b } := { hs with ibuf_fits := hb }

theorem State.Inv.withObuf (hs : s.Inv) {b : List Byte} (hb : s.params.bufFits b.length = true) :
    State.Inv { s with obuf := b } := { hs with obuf_fits := hb }

theorem State.Inv.withSponge (hs : s.Inv) (a : Lanes) {p : Nat} (hp : p ≤ 136) :
    State.Inv { s with lanes := a, spos := p } := { hs with spos_range := hp }

theorem State.Inv.setSelector (hs : s.Inv) (d : List Byte) : (s.setSelector d).Inv :=
  { hs with selr_clear := fun h => by simp at h }

theorem State.Inv.clearSelector (hs : s.Inv) : s.clearSelector.Inv := { hs with selr_clear := fun _ => rfl }

theorem State.Inv.withItyp (hs : s.Inv) {l : List Byte} (hl : l.length ≤ s.params.listCap) :
    State.Inv { s with ityp := l } := { hs with ityp_range := hl }

theorem State.Inv.withOtyp (hs : s.Inv) {l : List Byte} (hl : l.length ≤ s.params.listCap) :
    State.Inv { s with otyp := l } := { hs with otyp_range := hl }

theorem State.Inv.withArgv (hs : s.Inv) {l : List (List Byte)} (hl : l.length ≤ s.params.listCap)
    (hf : ∀ a ∈ l, s.params.bufFits a.length = true) : State.Inv { s with argv := l } :=
  { hs with argv_range := hl, argv_fits := hf }

theorem State.Inv.withResv (hs : s.Inv) {l : List (List Byte)} (hl : l.length ≤ s.params.listCap)
    (hf : ∀ v ∈ l, s.params.bufFits v.length = true) : State.Inv { s with resv := l } :=
  { hs with resv_range := hl, resv_fits := hf }

/-- The bytes that `HASH` and `SEL` put out, rendered, fit the smallest buffer (R9, R128, R150). -/
theorem State.Inv.hashed (hs : s.Inv) (a : Lanes) {b : List Byte} (hb : b.length ≤ 66) :
    State.Inv { s with lanes := a, spos := 32, obuf := b } :=
  (hs.withSponge a (by decide)).withObuf (Params.bufFits_of_legal hs.params_legal hb)

theorem State.Inv.of_decPayload (hs : s.Inv) {p : List Byte} {u : State} (h : decPayload p s = .ok u) : u.Inv := by
  rcases decPayload_ok_iff.mp h with ⟨_, rfl⟩ | ⟨_, vs, hvs, rfl⟩
  · exact hs.withResv (Nat.zero_le _) (by simp)
  · exact hs.withResv (length_decOutputs hvs ▸ hs.otyp_range) (fits_of_decOutputs hvs)

theorem State.Inv.of_encInto (hs : s.Inv) {render : List Byte → List Byte} {u : State} (h : encInto render s = .ok u) :
    u.Inv := by
  obtain ⟨p, _, hf, rfl⟩ := encInto_ok_iff.mp h
  exact hs.withObuf hf

/-- Every effect that completes keeps the ranges. -/
theorem State.Inv.of_effectOf {i : Instr} {u : State} (hs : s.Inv) (h : effectOf i s = .ok u) : u.Inv := by
  cases i <;> simp only [effectOf] at h
  case nop => rw [nopEffect_eq] at h; injection h with h; exact h ▸ hs
  case clrerr => injection h with h; exact h ▸ hs.clearFault
  case iclr =>
    rw [iclrEffect_eq] at h; injection h with h
    exact h ▸ hs.withIbuf (Params.bufFits_of_legal hs.params_legal (Nat.zero_le _))
  case iput =>
    obtain ⟨hcap, rfl⟩ := iputEffect_ok_iff.mp h
    exact hs.withIbuf (by simpa using Params.bufFits_succ hs.ibuf_fits hcap)
  case xfer =>
    obtain ⟨_, rfl⟩ := xferEffect_ok_iff.mp h
    exact hs.withIbuf (Params.bufFits_mono (by simp) hs.obuf_fits)
  case pclr =>
    rw [pclrEffect_eq] at h; injection h with h
    exact h ▸ hs.withSponge _ (Nat.zero_le _)
  case prnd =>
    obtain ⟨_, rfl⟩ := prndEffect_ok_iff.mp h
    exact hs.withSponge _ hs.spos_range
  case perm =>
    rw [permEffect_eq] at h; injection h with h
    exact h ▸ hs.withSponge _ hs.spos_range
  case abs =>
    rw [absEffect_eq] at h; injection h with h
    exact h ▸ hs.withSponge _ (Nat.zero_le _)
  case sqz =>
    obtain ⟨hf, rfl⟩ := sqzEffect_ok_iff.mp h
    exact (hs.withSponge _ (squeeze_spos_le hs.spos_range)).withObuf ((length_squeeze _ _ _).symm ▸ hf)
  case hash =>
    rw [hashEffect_eq, hashInto_eq] at h; injection h with h
    exact h ▸ hs.hashed _ (by simp [length_keccak256])
  case hashX =>
    rw [hashXEffect_eq, hashInto_eq] at h; injection h with h
    exact h ▸ hs.hashed _ (by simp [length_hex0x, length_keccak256])
  case sel =>
    rw [selEffect_eq, selInto_eq] at h; injection h with h
    exact h ▸ (hs.hashed _ (by simp [length_keccak256])).setSelector _
  case selX =>
    rw [selXEffect_eq, selInto_eq] at h; injection h with h
    exact h ▸ (hs.hashed _ (by simp [length_hex0x, length_keccak256])).setSelector _
  case dclr =>
    rw [dclrEffect_eq] at h; injection h with h
    exact h ▸ (hs.clearSelector.withItyp (l := []) (Nat.zero_le _)).withOtyp (l := []) (Nat.zero_le _)
  case tin =>
    obtain ⟨hcap, rfl⟩ := tinEffect_ok_iff.mp h
    exact hs.withItyp (by simpa using lt_of_le_of_ne hs.ityp_range hcap)
  case tout =>
    obtain ⟨hcap, rfl⟩ := toutEffect_ok_iff.mp h
    exact hs.withOtyp (by simpa using lt_of_le_of_ne hs.otyp_range hcap)
  case aclr =>
    rw [aclrEffect_eq] at h; injection h with h
    exact h ▸ hs.withArgv (Nat.zero_le _) (by simp)
  case apush =>
    obtain ⟨hcap, rfl⟩ := apushEffect_ok_iff.mp h
    refine hs.withArgv (by simpa using lt_of_le_of_ne hs.argv_range hcap) ?_
    simpa [or_imp, forall_and] using ⟨hs.argv_fits, hs.ibuf_fits⟩
  case enc => exact hs.of_encInto h
  case encX => exact hs.of_encInto h
  case dec => exact hs.of_decPayload h
  case decX =>
    obtain ⟨p, _, hp⟩ := decXEffect_ok_iff.mp h
    exact hs.of_decPayload hp
  case rget =>
    obtain ⟨v, hv, rfl⟩ := rgetEffect_ok_iff.mp h
    exact hs.withObuf (hs.resv_fits v (List.mem_of_getElem? hv))

/-! ### The ranges of the state under words and steps -/

theorem State.Inv.of_exec (hs : s.Inv) {w : CmdWord} {i : Instr} {t : State} (hd : decode w = some i)
    (h : exec i s = .next t) : t.Inv := by
  by_cases hi : i = .clrerr
  · subst hi
    rw [exec_clrerr] at h
    cases h
    exact hs.clearFault.advance
  · obtain ⟨rfl, hw⟩ := encode_of_decode hd
    rw [exec_eq_takeCommand hi] at h
    refine hs.of_takeCommand (fun _ => hs.of_effectOf) (fun e he => ?_) h
    obtain ⟨hkind, hpos⟩ := ofCommand_of_effectOf_error hw he
    exact ⟨by simp [hkind, hd], hpos⟩

theorem State.Inv.of_takeIllegal (hs : s.Inv) {w : CmdWord} {t : State} (hd : decode w = none)
    (h : takeIllegal w s = .next t) : t.Inv := by
  refine hs.of_takeCommand (f := illegalEffect) (fun u hu => by cases hu) (fun e he => ?_) h
  cases he
  exact ⟨iff_of_true rfl hd, fun _ => rfl⟩

theorem State.Inv.of_takeWord (hs : s.Inv) {w : CmdWord} {t : State} (h : takeWord w s = .next t) : t.Inv := by
  cases hd : decode w with
  | none => exact hs.of_takeIllegal hd (takeWord_none hd s ▸ h)
  | some i => exact hs.of_exec hd (takeWord_some hd s ▸ h)

/-- Settles O15, by the host's next move: none, the reset, or a pushed word. -/
theorem stepKeepsTheStateInRange : Obligations.StepKeepsTheStateInRange := by
  intro s t hs h
  match hm : s.moves with
  | [] => rw [step_idle hm] at h; cases h; exact hs
  | .assertReset :: rest => rw [step_reset hm] at h; cases h; exact (hs.withMoves rest).assertReset
  | .push w :: rest => rw [step_push hm] at h; exact (hs.withMoves rest).of_takeWord h

end Sys2Proof.Machine

/-! SUPPORT. Runs of programs (R11). -/

namespace Sys2Proof.Machine

/-! ### Programs: each word on the state the one before it left (R11, R31, R61) -/

section
variable (ws : List CmdWord) (s : State)

theorem encPayload_withProgram : encPayload (s.withProgram ws) = encPayload s := rfl

/-- A check on registers other than the moves decides the same whatever moves are to come. -/
theorem map_withProgram_ite {c : Prop} [Decidable c] (x y : Except Raise State) :
    (if c then x else y).map (State.withProgram ws)
      = if c then x.map (State.withProgram ws) else y.map (State.withProgram ws) := apply_ite _ _ _ _

theorem encInto_withProgram (render : List Byte → List Byte) :
    encInto render (s.withProgram ws) = (encInto render s).map (State.withProgram ws) := by
  unfold encInto
  rw [encPayload_withProgram]
  cases encPayload s with
  | error r => rfl
  | ok p => simp only [map_withProgram_ite]; rfl

theorem decPayload_withProgram (p : List Byte) :
    decPayload p (s.withProgram ws) = (decPayload p s).map (State.withProgram ws) := by
  simp only [decPayload, State.withProgram_params, State.withProgram_otyp]
  cases p with
  | nil => rfl
  | cons => cases decOutputs s.params _ 0 s.otyp <;> rfl

theorem decXEffect_withProgram :
    decXEffect (s.withProgram ws) = (decXEffect s).map (State.withProgram ws) := by
  simp only [decXEffect, State.withProgram_ibuf]
  cases unhex s.ibuf with
  | none => rfl
  | some p => exact decPayload_withProgram ws s p

theorem hashInto_withProgram (render : List Byte → List Byte) :
    hashInto render (s.withProgram ws) = (hashInto render s).withProgram ws := by
  rw [hashInto_eq, hashInto_eq]; rfl

theorem selInto_withProgram (render : List Byte → List Byte) :
    selInto render (s.withProgram ws) = (selInto render s).withProgram ws := by
  rw [selInto_eq, selInto_eq]; rfl

/-- No effect reads or writes the host's moves. -/
theorem effectOf_withProgram (i : Instr) :
    effectOf i (s.withProgram ws) = (effectOf i s).map (State.withProgram ws) := by
  cases i
  case nop | clrerr | iclr | pclr | perm | abs | dclr | aclr => rfl
  case hash => exact congrArg Except.ok (hashInto_withProgram ws s id)
  case hashX => exact congrArg Except.ok (hashInto_withProgram ws s hex0x)
  case sel => exact congrArg Except.ok (selInto_withProgram ws s id)
  case selX => exact congrArg Except.ok (selInto_withProgram ws s hex0x)
  case iput => simp only [effectOf, iputEffect, map_withProgram_ite]; rfl
  case xfer => simp only [effectOf, xferEffect, map_withProgram_ite]; rfl
  case prnd => simp only [effectOf, prndEffect]; split <;> rfl
  case sqz => simp only [effectOf, sqzEffect, map_withProgram_ite]; rfl
  case tin => simp only [effectOf, tinEffect, map_withProgram_ite]; rfl
  case tout => simp only [effectOf, toutEffect, map_withProgram_ite]; rfl
  case apush => simp only [effectOf, apushEffect, map_withProgram_ite]; rfl
  case enc => exact encInto_withProgram ws s id
  case encX => exact encInto_withProgram ws s hex0x
  case dec => exact decPayload_withProgram ws s s.ibuf
  case decX => exact decXEffect_withProgram ws s
  case rget j =>
    simp only [effectOf, rgetEffect, State.withProgram_resv]
    cases s.resv[j.toNat]? <;> rfl

end

variable {s t : State} {w : CmdWord}

/-- A taken command whose effect does not see the host's moves does the same whatever moves are to come. -/
theorem takeCommand_withProgram {f : State → Except Raise State} (ws : List CmdWord)
    (hf : f (s.withProgram ws) = (f s).map (State.withProgram ws)) (h : takeCommand w f s = .next t) :
    takeCommand w f (s.withProgram ws) = .next (t.withProgram ws) := by
  rcases takeCommand_cases h with ⟨he, rfl⟩ | ⟨u, he, hu, rfl⟩ | ⟨e, he, hu, rfl⟩
  · exact takeCommand_latched he
  · exact takeCommand_ok (t := u.withProgram ws) he (by rw [hf, hu]; rfl)
  · exact takeCommand_error he (by rw [hf, hu]; rfl)

theorem exec_withProgram {i : Instr} (ws : List CmdWord) (h : exec i s = .next t) :
    exec i (s.withProgram ws) = .next (t.withProgram ws) := by
  by_cases hi : i = .clrerr
  · subst hi; cases h; rfl
  · rw [exec_eq_takeCommand hi] at h ⊢
    exact takeCommand_withProgram ws (effectOf_withProgram ws s i) h

theorem takeWord_withProgram (ws : List CmdWord) (h : takeWord w s = .next t) :
    takeWord w (s.withProgram ws) = .next (t.withProgram ws) := by
  cases hd : decode w with
  | none => rw [takeWord_none hd] at h ⊢; exact takeCommand_withProgram ws rfl h
  | some i => rw [takeWord_some hd] at h ⊢; exact exec_withProgram ws h

theorem takeWord_total (w : CmdWord) (s : State) : ∃ t, takeWord w s = .next t := by
  cases hd : decode w with
  | none => rw [takeWord_none hd]; exact takeCommand_total _ _ _
  | some i => rw [takeWord_some hd]; exact exec_total i s

/-- A word taken, executed, faulting or skipped, adds one to `CP` (R31) and leaves the open parameters and the host's
moves alone, when its effect leaves all three alone. -/
theorem takeCommand_frame {f : State → Except Raise State}
    (hf : ∀ u, f s = .ok u → u.cp = s.cp ∧ u.params = s.params ∧ u.moves = s.moves) (h : takeCommand w f s = .next t) :
    t.cp = s.cp + 1 ∧ t.params = s.params ∧ t.moves = s.moves := by
  rcases takeCommand_cases h with ⟨_, rfl⟩ | ⟨u, _, hu, rfl⟩ | ⟨e, _, _, rfl⟩
  · exact ⟨rfl, rfl, rfl⟩
  · obtain ⟨hcp, hparams, hmoves⟩ := hf u hu
    exact ⟨congrArg (· + 1) hcp, hparams, hmoves⟩
  · exact ⟨rfl, rfl, rfl⟩

theorem exec_frame {i : Instr} (h : exec i s = .next t) :
    t.cp = s.cp + 1 ∧ t.params = s.params ∧ t.moves = s.moves := by
  by_cases hi : i = .clrerr
  · subst hi; cases h; exact ⟨rfl, rfl, rfl⟩
  · rw [exec_eq_takeCommand hi] at h
    refine takeCommand_frame (fun u hu => ?_) h
    obtain ⟨hcp, hparams, hmoves, _⟩ := effectOf_ok_frame hu
    exact ⟨hcp, hparams, hmoves⟩

theorem takeWord_frame (h : takeWord w s = .next t) :
    t.cp = s.cp + 1 ∧ t.params = s.params ∧ t.moves = s.moves := by
  cases hd : decode w with
  | none => rw [takeWord_none hd] at h; exact takeCommand_frame (f := illegalEffect) (fun u hu => by cases hu) h
  | some i => rw [takeWord_some hd] at h; exact exec_frame h

theorem run_succ {M : Host.Core} {s t : M.State} (h : M.step s = .next t) (k : Nat) : M.run (k + 1) s = M.run k t := by
  simp only [Host.Core.run, h]

/-- A run takes the first word of the program and goes on with the others from the state it leaves. -/
theorem run_withProgram_cons (ws : List CmdWord) (h : takeWord w s = .next t) :
    core.run (w :: ws).length (s.withProgram (w :: ws)) = core.run ws.length (t.withProgram ws) := by
  have hstep : core.step (s.withProgram (w :: ws)) = .next (t.withProgram ws) :=
    (step_push (State.withProgram_moves (w :: ws) s)).trans (takeWord_withProgram (s := s) ws h)
  exact run_succ (M := core) hstep ws.length

/-- Every program runs to its end, and what is pushed after it starts from the state it leaves. -/
theorem run_withProgram_append (us : List CmdWord) (s : State) : ∃ t,
    core.run us.length (s.withProgram us) = .next t ∧ t.cp = s.cp + BitVec.ofNat 32 us.length ∧ t.moves = []
    ∧ ∀ vs : List CmdWord,
      core.run (us ++ vs).length (s.withProgram (us ++ vs)) = core.run vs.length (t.withProgram vs) := by
  induction us generalizing s with
  | nil => exact ⟨s.withProgram [], rfl, by simp, rfl, fun _ => rfl⟩
  | cons w us ih =>
    obtain ⟨s', hw⟩ := takeWord_total w s
    obtain ⟨t, hrun, hcp, hmoves, happ⟩ := ih s'
    obtain ⟨hcp', _, _⟩ := takeWord_frame hw
    refine ⟨t, (run_withProgram_cons us hw).trans hrun, ?_, hmoves,
      fun vs => (run_withProgram_cons (us ++ vs) hw).trans (happ vs)⟩
    rw [hcp, hcp', List.length_cons, BitVec.ofNat_add, BitVec.add_assoc, BitVec.add_comm 1]
    rfl

/-- Settles O10, by induction on the words of the program. -/
theorem cpCountsTheWordsOfARun : Obligations.CpCountsTheWordsOfARun := by
  intro p ws
  obtain ⟨t, hrun, hcp, hmoves, _⟩ := run_withProgram_append ws (State.resetWith p)
  refine ⟨t, hrun, ?_, hmoves⟩
  simp [hcp]

/-- Settles O12, by induction on the first list of words. -/
theorem programOrderIsExecutionOrder : Obligations.ProgramOrderIsExecutionOrder := by
  intro s us vs
  obtain ⟨t, hrun, _, _, happ⟩ := run_withProgram_append us s
  exact ⟨t, hrun, happ vs⟩

end Sys2Proof.Machine

/-! SUPPORT. The access table (R35), the block and its bytes (R22, R121), reset (R260) and `CP` (R31). -/

namespace Sys2Proof.Machine

/-! ### A word taken, the reset move (R31, R36, R260) -/

/-- Settles O9: what every word taken moves and leaves alone. -/
theorem everyWordTakenAdvancesCp : Obligations.EveryWordTakenAdvancesCp := by
  intro s w rest hm
  obtain ⟨t, ht⟩ := takeWord_total w { s with moves := rest }
  obtain ⟨hcp, hparams, hmoves⟩ := takeWord_frame ht
  exact ⟨t, (step_push hm).trans ht, by simp [hcp], hmoves, hparams⟩

/-- Settles O13: the reset move's registers, one by one. -/
theorem resetMoveGivesTheTabulatedValues : Obligations.ResetMoveGivesTheTabulatedValues := by
  intro s rest hm
  refine ⟨_, step_reset hm, ?_⟩
  simp [Vector.toList_replicate]

/-! ### The columns a command writes (R35) -/

/-- A statement about every column is one about each of the ten. -/
theorem Part.forall_iff {P : Part → Prop} : (∀ p, P p) ↔
    P .a ∧ P .spos ∧ P .ibuf ∧ P .obuf ∧ P .selector ∧ P .ityp ∧ P .otyp ∧ P .argv ∧ P .resv ∧ P .errorRegs := by
  constructor
  · intro h; exact ⟨h _, h _, h _, h _, h _, h _, h _, h _, h _, h _⟩
  · rintro ⟨ha, hspos, hibuf, hobuf, hsel, hityp, hotyp, hargv, hresv, herr⟩ p
    cases p <;> assumption

section
variable {i : Instr} {s s' t u : State} {p : Part}

/-- `CP` is in no column of the table. -/
theorem Part.same_advance_right : Part.same s u.advance p ↔ Part.same s u p := by cases p <;> rfl

theorem Part.same_advance_left : Part.same s.advance u p ↔ Part.same s u p := by cases p <;> rfl

/-- An effect that completes leaves the columns that are not marked "w" as they were. -/
theorem effectOf_ok_same (h : effectOf i s = .ok u) : ∀ p, p ∉ writes i → Part.same s u p := by
  rw [Part.forall_iff]
  cases i
  case nop | clrerr | iclr | pclr | perm | abs | dclr | aclr =>
    obtain rfl := Except.ok.inj h; simp [writes, Part.same]
  case hash | hashX => obtain rfl := Except.ok.inj h; simp [writes, Part.same, hashInto_eq]
  case sel | selX => obtain rfl := Except.ok.inj h; simp [writes, Part.same, selInto_eq]
  case iput => obtain ⟨_, rfl⟩ := iputEffect_ok_iff.mp h; simp [writes, Part.same]
  case xfer => obtain ⟨_, rfl⟩ := xferEffect_ok_iff.mp h; simp [writes, Part.same]
  case prnd => obtain ⟨_, rfl⟩ := prndEffect_ok_iff.mp h; simp [writes, Part.same]
  case sqz => obtain ⟨_, rfl⟩ := sqzEffect_ok_iff.mp h; simp [writes, Part.same]
  case tin => obtain ⟨_, rfl⟩ := tinEffect_ok_iff.mp h; simp [writes, Part.same]
  case tout => obtain ⟨_, rfl⟩ := toutEffect_ok_iff.mp h; simp [writes, Part.same]
  case apush => obtain ⟨_, rfl⟩ := apushEffect_ok_iff.mp h; simp [writes, Part.same]
  case enc | encX => obtain ⟨_, _, _, rfl⟩ := encInto_ok_iff.mp h; simp [writes, Part.same]
  case dec =>
    rcases decPayload_ok_iff.mp h with ⟨_, rfl⟩ | ⟨_, _, _, rfl⟩ <;> simp [writes, Part.same]
  case decX =>
    obtain ⟨_, _, h⟩ := decXEffect_ok_iff.mp h
    rcases decPayload_ok_iff.mp h with ⟨_, rfl⟩ | ⟨_, _, _, rfl⟩ <;> simp [writes, Part.same]
  case rget => obtain ⟨_, _, rfl⟩ := rgetEffect_ok_iff.mp h; simp [writes, Part.same]

/-- No effect sets `ERR`: that is the fault entry's. -/
theorem effectOf_ok_unlatched (hs : s.err = false) (h : effectOf i s = .ok u) : u.err = false := by
  by_cases hi : i = .clrerr
  · subst hi; cases h; rfl
  · obtain ⟨_, _, _, herr⟩ := effectOf_ok_frame h
    exact (herr hi).1.trans hs

/-- What a command taken while `ERR = 0` can do: complete, still unlatched, or enter a fault. -/
theorem exec_unlatched_cases (hs : s.err = false) (h : exec i s = .next t) :
    (∃ u, effectOf i s = .ok u ∧ u.err = false ∧ t = u.advance)
    ∨ ∃ e, effectOf i s = .error e ∧ t = s.enterFault e (encode i) := by
  rw [exec_unlatched i hs] at h
  rcases takeCommand_cases h with ⟨he, _⟩ | ⟨u, _, hu, rfl⟩ | ⟨e, _, he, rfl⟩
  · simp [hs] at he
  · exact .inl ⟨u, hu, effectOf_ok_unlatched hs hu, rfl⟩
  · exact .inr ⟨e, he, rfl⟩

/-- Settles O21: a command that does not fault has its effect, which writes the marked columns only. -/
theorem writesAreTheTabulated : Obligations.WritesAreTheTabulated := by
  intro i s t hs h ht
  refine ⟨fun p hp => ?_, exec_frame h⟩
  rcases exec_unlatched_cases hs h with ⟨u, hu, _, rfl⟩ | ⟨e, _, rfl⟩
  · exact Part.same_advance_right.mpr (effectOf_ok_same hu p hp)
  · simp at ht

/-! ### The columns a command reads (R35) -/

/-- Two effects' answers agree in the columns `ps`: they are the same raise, or states with the same contents there. -/
def AgreeOn (ps : List Part) : Except Raise State → Except Raise State → Prop
  | .ok u, .ok u' => ∀ p ∈ ps, Part.same u u' p
  | .error e, .error e' => e' = e
  | .ok _, .error _ => False
  | .error _, .ok _ => False

@[simp] theorem agreeOn_ok {ps : List Part} : AgreeOn ps (.ok u) (.ok s) ↔ ∀ p ∈ ps, Part.same u s p := Iff.rfl

@[simp] theorem agreeOn_error {ps : List Part} {e e' : Raise} : AgreeOn ps (.error e) (.error e') ↔ e' = e := Iff.rfl

/-- Two effects that decide alike agree when their branches do. -/
theorem AgreeOn.ite {c : Prop} [Decidable c] {ps : List Part} {x y x' y' : Except Raise State}
    (hx : AgreeOn ps x x') (hy : AgreeOn ps y y') : AgreeOn ps (if c then x else y) (if c then x' else y') := by
  split
  · exact hx
  · exact hy

theorem decPayload_agreeOn {b : List Byte} (hparams : s'.params = s.params) (hotyp : s'.otyp = s.otyp) :
    AgreeOn [.resv] (decPayload b s) (decPayload b s') := by
  unfold decPayload
  rw [hparams, hotyp]
  refine .ite (by simp [Part.same]) ?_
  cases decOutputs s.params b 0 s.otyp <;> simp [Part.same]

theorem encPayload_congr (hselr : s'.selr = s.selr) (hselv : s'.selv = s.selv) (hityp : s'.ityp = s.ityp)
    (hargv : s'.argv = s.argv) : encPayload s' = encPayload s := by
  simp only [encPayload, hselr, hselv, hityp, hargv]

theorem encInto_agreeOn {render : List Byte → List Byte} (hparams : s'.params = s.params)
    (hpayload : encPayload s' = encPayload s) : AgreeOn [.obuf] (encInto render s) (encInto render s') := by
  unfold encInto
  rw [hparams, hpayload]
  cases encPayload s with
  | error e => simp
  | ok b => exact .ite (by simp [Part.same]) (by simp)

/-- From states that agree in the columns marked "r", an effect answers the same raise, or states that agree in the
columns marked "w". -/
theorem effectOf_agreeOn (hparams : s'.params = s.params) (h : ∀ p ∈ reads i, Part.same s s' p) :
    AgreeOn (writes i) (effectOf i s) (effectOf i s') := by
  cases i <;> simp only [effectOf] <;>
    simp only [reads, List.mem_cons, List.not_mem_nil, or_false, forall_eq_or_imp, forall_eq, Part.same] at h
  case nop => simp [nopEffect_eq, writes]
  case clrerr => simp [writes, Part.same]
  case iclr => simp [iclrEffect_eq, writes, Part.same]
  case pclr => simp [pclrEffect_eq, writes, Part.same]
  case dclr => simp [dclrEffect_eq, writes, Part.same]
  case aclr => simp [aclrEffect_eq, writes, Part.same]
  case perm => simp [permEffect_eq, writes, Part.same, h]
  case abs => simp [absEffect_eq, writes, Part.same, h]
  case hash => simp [hashEffect_eq, hashInto_eq, writes, Part.same, h]
  case hashX => simp [hashXEffect_eq, hashInto_eq, writes, Part.same, h]
  case sel => simp [selEffect_eq, selInto_eq, writes, Part.same, h]
  case selX => simp [selXEffect_eq, selInto_eq, writes, Part.same, h]
  case iput => simp only [iputEffect, hparams, h]; exact .ite (by simp) (by simp [writes, Part.same])
  case xfer => simp only [xferEffect, h]; exact .ite (by simp) (by simp [writes, Part.same])
  case prnd => simp only [prndEffect, h]; split <;> simp [writes, Part.same]
  case sqz => simp only [sqzEffect, hparams, h]; exact .ite (by simp [writes, Part.same]) (by simp)
  case tin => simp only [tinEffect, hparams, h]; exact .ite (by simp) (by simp [writes, Part.same])
  case tout => simp only [toutEffect, hparams, h]; exact .ite (by simp) (by simp [writes, Part.same])
  case apush => simp only [apushEffect, hparams, h]; exact .ite (by simp) (by simp [writes, Part.same])
  case enc | encX =>
    obtain ⟨⟨hselr, hselv⟩, hityp, hargv⟩ := h
    exact encInto_agreeOn hparams (encPayload_congr hselr hselv hityp hargv)
  case dec =>
    obtain ⟨hibuf, hotyp⟩ := h
    rw [decEffect, decEffect, hibuf]
    exact decPayload_agreeOn hparams hotyp
  case decX =>
    obtain ⟨hibuf, hotyp⟩ := h
    rw [decXEffect, decXEffect, hibuf]
    cases unhex s.ibuf with
    | none => simp
    | some b => exact decPayload_agreeOn hparams hotyp
  case rget j =>
    simp only [rgetEffect, h]
    cases s.resv[j.toNat]? <;> simp [writes, Part.same]

/-- Settles O22: the two effects answer alike, so the commands fault alike or complete alike. -/
theorem readsAreTheTabulated : Obligations.ReadsAreTheTabulated := by
  intro i s s' t t' hs hs' hparams hr h h'
  have hagree := effectOf_agreeOn hparams hr
  rcases exec_unlatched_cases hs h with ⟨u, hu, herr, rfl⟩ | ⟨e, he, rfl⟩ <;>
    rcases exec_unlatched_cases hs' h' with ⟨u', hu', herr', rfl⟩ | ⟨e', he', rfl⟩
  · rw [hu, hu'] at hagree
    refine ⟨herr'.trans herr.symm, fun hfault => by simp [herr] at hfault, fun _ p hp => ?_⟩
    exact Part.same_advance_left.mpr (Part.same_advance_right.mpr (hagree p hp))
  · rw [hu, he'] at hagree; exact hagree.elim
  · rw [he, hu'] at hagree; exact hagree.elim
  · rw [he, he'] at hagree
    obtain rfl : e' = e := hagree
    exact ⟨rfl, fun _ => ⟨rfl, rfl⟩, fun hok => by simp at hok⟩

/-! ### The capacity is never copied out (R22, R123, R128, R150) -/

/-- What `SQZ` leaves in `OBUF`: the squeezed bytes, or what was there when it faults (R127). -/
theorem obuf_of_exec_sqz {n : BitVec 16} (hs : s.err = false) (h : exec (.sqz n) s = .next t) :
    t.obuf = if s.params.bufFits n.toNat then (squeeze s.lanes s.spos n.toNat).out else s.obuf := by
  rcases exec_unlatched_cases hs h with ⟨u, hu, _, rfl⟩ | ⟨e, he, rfl⟩
  · obtain ⟨hfits, rfl⟩ := sqzEffect_ok_iff.mp hu; simp [hfits]
  · obtain ⟨hfits, _⟩ := sqzEffect_error_iff.mp he; simp [hfits]

/-- Without a permutation the bytes squeezed are those of the rate part (R22, R123). -/
theorem squeeze_out_congr {a b : Lanes} {p n : Nat} (hp : p + n ≤ 136)
    (h : ∀ k < 136, stateByte a k = stateByte b k) : (squeeze a p n).out = (squeeze b p n).out := by
  rw [squeeze_window hp, squeeze_window hp]
  refine List.map_congr_left fun k hk => h k ?_
  have := List.mem_range'_1.mp hk
  omega

theorem hashInto_withSponge (render : List Byte → List Byte) (s : State) (a : Lanes) (p : Nat) :
    hashInto render { s with lanes := a, spos := p } = hashInto render s := by
  rw [hashInto_eq, hashInto_eq]

/-- A hash starts from the all-zero state, so no lane and no `SPOS` reaches what `HASH` and `SEL` leave. -/
theorem effectOf_hash_withSponge (hi : i ∈ [.hash, .hashX, .sel, .selX]) (s : State) (a : Lanes) (p : Nat) :
    ∃ u, effectOf i s = .ok u ∧ effectOf i { s with lanes := a, spos := p } = .ok u := by
  simp only [List.mem_cons, List.not_mem_nil, or_false] at hi
  rcases hi with rfl | rfl | rfl | rfl
  · exact ⟨_, rfl, congrArg Except.ok (hashInto_withSponge id s a p)⟩
  · exact ⟨_, rfl, congrArg Except.ok (hashInto_withSponge hex0x s a p)⟩
  · exact ⟨_, rfl, congrArg Except.ok (by rw [selInto, hashInto_withSponge]; rfl)⟩
  · exact ⟨_, rfl, congrArg Except.ok (by rw [selInto, hashInto_withSponge]; rfl)⟩

/-- Settles O24: the squeezed window lies in the rate part, and a hash reads no lane. -/
theorem capacityIsNotCopiedOut : Obligations.CapacityIsNotCopiedOut := by
  constructor
  · intro s n a t t' hs hn ha h h'
    rw [obuf_of_exec_sqz hs h, obuf_of_exec_sqz (s := { s with lanes := a }) hs h', squeeze_out_congr hn ha]
  · intro s i a p hs hi
    obtain ⟨u, hu, hu'⟩ := effectOf_hash_withSponge hi s a p
    rw [exec_unlatched i hs, exec_unlatched i (s := { s with lanes := a, spos := p }) hs, takeCommand_ok hs hu]
    exact takeCommand_ok hs hu'

end

/-! ### The bytes of a block and of the lanes (R12, R22, R121) -/

/-- Byte `j` of a little-endian natural is byte `j` of its string (R12). -/
theorem leNat_div_mod (b : List Byte) (j : Nat) (h : j < b.length) : leNat b / 256 ^ j % 256 = b[j].toNat := by
  induction b generalizing j with
  | nil => simp at h
  | cons x xs ih =>
    have hx := x.isLt
    cases j with
    | zero => simp [leNat]; omega
    | succ j =>
      have hdiv : (x.toNat + 256 * leNat xs) / 256 = leNat xs := by omega
      rw [leNat, Nat.pow_succ', ← Nat.div_div_eq_div_mul, hdiv]
      exact ih j (by simpa using h)

/-- Byte `j` of a lane read little-endian is byte `j` of its string (R12, R22). -/
theorem byte_le64 {b : List Byte} {j : Nat} (hj : j < 8) (hb : j < b.length) :
    (le64 b >>> (8 * j)).setWidth 8 = b[j] := by
  have hcut : leNat b % 2 ^ 64 / 2 ^ (8 * j) % 2 ^ 8 = leNat b / 256 ^ j % 256 := by
    interval_cases j <;> omega
  refine BitVec.eq_of_toNat_eq ?_
  rw [BitVec.toNat_setWidth, BitVec.toNat_ushiftRight, le64, BitVec.toNat_ofNat, Nat.shiftRight_eq_div_pow, hcut,
    leNat_div_mod b j hb]

/-- The lanes of a block XORed in, before the permutation (R121). -/
def xorBlock (a : Lanes) (blk : List Byte) : Lanes :=
  Vector.ofFn fun i => if i.val < 17 then a[i] ^^^ le64 (slice blk (8 * i.val) 8) else a[i]

theorem absorbBlock_eq (a : Lanes) (blk : List Byte) : absorbBlock a blk = keccakF (xorBlock a blk) := rfl

theorem getElem_xorBlock (a : Lanes) (blk : List Byte) (i : Nat) (h : i < 25) :
    (xorBlock a blk)[i] = if i < 17 then a[i] ^^^ le64 (slice blk (8 * i) 8) else a[i] := by
  simp [xorBlock]

/-- State byte `k` of 200 is a byte of lane `k div 8` (R22). -/
theorem stateByte_of_lt (a : Lanes) {k : Nat} (hk : k < 200) :
    stateByte a k = ((a[k / 8]'(by omega)) >>> (8 * (k % 8))).setWidth 8 := dif_pos hk

theorem stateByte_xorBlock_rate (a : Lanes) {blk : List Byte} (hblk : blk.length = 136) {k : Nat}
    (hk : k < blk.length) : stateByte (xorBlock a blk) k = stateByte a k ^^^ blk[k] := by
  have hlane : k / 8 < 17 := by omega
  have hbyte : (slice blk (8 * (k / 8)) 8).length = 8 := length_slice (by omega)
  have hpos : 8 * (k / 8) + k % 8 = k := by omega
  rw [stateByte_of_lt _ (by omega), stateByte_of_lt _ (by omega), getElem_xorBlock, if_pos hlane,
    BitVec.ushiftRight_xor_distrib, BitVec.setWidth_xor, byte_le64 (by omega) (by omega)]
  simp [slice, hpos]

theorem stateByte_xorBlock_capacity (a : Lanes) (blk : List Byte) {k : Nat} (hk : 136 ≤ k) (hk' : k < 200) :
    stateByte (xorBlock a blk) k = stateByte a k := by
  have hlane : ¬ k / 8 < 17 := by omega
  rw [stateByte_of_lt _ hk', stateByte_of_lt _ hk', getElem_xorBlock, if_neg hlane]

/-- Settles O37: the lanes before the permutation are those of the XORed block. -/
theorem absorbXorsTheRatePart : Obligations.AbsorbXorsTheRatePart := by
  intro a blk hblk
  exact ⟨xorBlock a blk, absorbBlock_eq a blk, fun k hk => stateByte_xorBlock_rate a hblk hk,
    fun k hk hk' => stateByte_xorBlock_capacity a blk hk hk'⟩

end Sys2Proof.Machine

/-! SUPPORT. Repeating a command (R59). -/

namespace Sys2Proof.Machine

section
variable {i : Instr} {s u v : State}

/-- The commands of R59 are exactly those that read no column they write (R35). -/
theorem idempotent_iff_reads_disjoint_writes : idempotent i = true ↔ ∀ p ∈ reads i, p ∉ writes i := by
  cases i <;> simp [idempotent, reads, writes]

/-- The ten columns, `CP`, the open parameters and the host's moves are the whole state. -/
theorem State.eq_of_parts_same (hparts : ∀ p, Part.same u v p) (hcp : v.cp = u.cp) (hparams : v.params = u.params)
    (hmoves : v.moves = u.moves) : v = u := by
  rw [Part.forall_iff] at hparts
  cases u; cases v
  simp_all [Part.same]

/-- A command that reads no column it writes finds, right after it completed, what it read before, and so writes what
stands there already. -/
theorem effectOf_ok_again (hi : idempotent i = true) (h : effectOf i s = .ok u) :
    effectOf i u.advance = .ok u.advance := by
  have hread : ∀ p ∈ reads i, Part.same s u.advance p := fun p hp =>
    Part.same_advance_right.mpr (effectOf_ok_same h p (idempotent_iff_reads_disjoint_writes.mp hi p hp))
  obtain ⟨_, hparams, _⟩ := effectOf_ok_frame h
  have hagree := effectOf_agreeOn (s' := u.advance) hparams hread
  rw [h] at hagree
  cases hv : effectOf i u.advance with
  | error e => rw [hv] at hagree; exact hagree.elim
  | ok v =>
    rw [hv] at hagree
    have hparts : ∀ p, Part.same u.advance v p := fun p => by
      by_cases hp : p ∈ writes i
      · exact Part.same_advance_left.mpr (hagree p hp)
      · exact effectOf_ok_same hv p hp
    obtain ⟨hcp, hparams, hmoves, _⟩ := effectOf_ok_frame hv
    rw [State.eq_of_parts_same hparts hcp hparams hmoves]

end

/-- Settles O23: a completed command finds its own result, and after a fault or a skip the latch stops the second word;
`CLRERR`, which the latch does not stop, clears what is already clear. -/
theorem repeatedCommandsAreIdempotent : Obligations.RepeatedCommandsAreIdempotent := by
  intro i s t hi h
  by_cases hc : i = .clrerr
  · subst hc; cases h; rfl
  · rw [exec_eq_takeCommand hc] at h ⊢
    rcases takeCommand_cases h with ⟨hlatched, rfl⟩ | ⟨u, hs, hu, rfl⟩ | ⟨e, _, _, rfl⟩
    · exact takeCommand_latched hlatched
    · have hunlatched : u.err = false := effectOf_ok_unlatched hs hu
      exact takeCommand_ok (s := u.advance) hunlatched (effectOf_ok_again hi hu)
    · exact takeCommand_latched rfl

end Sys2Proof.Machine

/-! SUPPORT. The encoder, the illegal words and the match/mask table against the decoder (R70 to R74, R80). -/

namespace Sys2Proof

/-! ### The decoder gives a command back from its word (R73, R78, R80) -/

/-- Settles O1: the fields of the word are the ones `encode` packed, and each operand form gives its operand back. The
cases are grouped by the form of the operand (R71). -/
theorem decodeInvertsEncode : Obligations.DecodeInvertsEncode := by
  intro i hw
  cases i
  case iput b | tin b | tout b => simp [encode, decode_packWord, decodeOpc, byteForm]
  case xfer k | sqz k | rget k => simp [encode, decode_packWord, decodeOpc, halfForm]
  case prnd r =>
    have hr : r.toNat ≤ 23 := of_decide_eq_true hw
    simp [encode, decode_packWord, decodeOpc, roundForm, hr]
  all_goals rfl

/-- Settles O2: the fields of an accepted word are those of its command's word. -/
theorem acceptedWordIsItsCommandsWord : Obligations.AcceptedWordIsItsCommandsWord :=
  fun _ _ => encode_of_decode

/-- Settles O5: the decoder evaluated on each word. -/
theorem sampleWordsDecode : Obligations.SampleWordsDecode := by
  unfold Obligations.SampleWordsDecode
  decide

/-! ### The illegal words (R71, R72, R74) -/

section
variable {x : BitVec 1} {imm : BitVec 16}

theorem bit_eq_zero_iff : x = 0 ↔ x ≠ 1 := by
  revert x; decide

theorem imm_eq_zero_iff : imm = 0 ↔ imm.toNat = 0 := (BitVec.toNat_inj (y := 0)).symm

/-- The immediate's bits above the low 8 are 0 exactly when it is a byte's value. -/
theorem extract_high8_eq_zero_iff : imm.extractLsb' 8 8 = 0 ↔ imm.toNat ≤ 255 := by
  have := imm.isLt
  rw [← BitVec.toNat_inj, BitVec.extractLsb'_toNat, Nat.shiftRight_eq_div_pow]
  simp
  omega

/-- `PRND`'s two conditions on the immediate are one bound on all its 16 bits. -/
theorem round_operand_iff :
    imm.extractLsb' 5 11 = 0 ∧ (imm.extractLsb' 0 5).toNat ≤ 23 ↔ imm.toNat ≤ 23 := by
  have := imm.isLt
  rw [← BitVec.toNat_inj, BitVec.extractLsb'_toNat, BitVec.extractLsb'_toNat, Nat.shiftRight_eq_div_pow]
  simp
  omega

theorem plainForm_eq_none_iff {i : Instr} : plainForm x imm i = none ↔ x = 1 ∨ imm.toNat ≠ 0 := by
  rw [plainForm, ite_eq_right_iff, imp_iff_not (Option.some_ne_none i), not_and_or, bit_eq_zero_iff, not_not,
    imm_eq_zero_iff]

theorem textForm_eq_none_iff {i iX : Instr} : textForm x imm i iX = none ↔ imm.toNat ≠ 0 := by
  rw [Ne, ← imm_eq_zero_iff]
  rcases bit_cases x with rfl | rfl <;> simp [textForm]

theorem byteForm_eq_none_iff {mk : BitVec 8 → Instr} : byteForm x imm mk = none ↔ x = 1 ∨ 255 < imm.toNat := by
  rw [byteForm, ite_eq_right_iff, imp_iff_not (Option.some_ne_none _), not_and_or, bit_eq_zero_iff, not_not,
    extract_high8_eq_zero_iff, not_le]

theorem halfForm_eq_none_iff {mk : BitVec 16 → Instr} : halfForm x imm mk = none ↔ x = 1 := by
  rw [halfForm, ite_eq_right_iff, imp_iff_not (Option.some_ne_none _), bit_eq_zero_iff, not_not]

theorem roundForm_eq_none_iff : roundForm x imm = none ↔ x = 1 ∨ 23 < imm.toNat := by
  rw [roundForm, ite_eq_right_iff, imp_iff_not (Option.some_ne_none _), round_operand_iff, not_and_or,
    bit_eq_zero_iff, not_not, not_le]

/-- The fields on which the lookup answers "illegal", listed as R74 does. The cases are the arms of `decodeOpc`, in
order, grouped by the form of their operand (R71). -/
theorem decodeOpc_eq_none_iff {opc : BitVec 8} : decodeOpc opc x imm = none ↔
    opc.toNat ∉ [0x00, 0x01, 0x02, 0x03, 0x04, 0x10, 0x11, 0x12, 0x20, 0x21, 0x22,
      0x30, 0x31, 0x32, 0x33, 0x34, 0x35, 0x40, 0x50, 0x51]
    ∨ (x = 1 ∧ opc.toNat ∉ [0x22, 0x30, 0x40, 0x50])
    ∨ (opc.toNat ∈ [0x03, 0x32, 0x33] ∧ 255 < imm.toNat)
    ∨ (opc.toNat = 0x11 ∧ 23 < imm.toNat)
    ∨ (opc.toNat ∉ [0x03, 0x04, 0x11, 0x21, 0x32, 0x33, 0x51] ∧ imm.toNat ≠ 0) := by
  unfold decodeOpc
  split
  case h_1 ho | h_2 ho | h_3 ho | h_6 ho | h_8 ho | h_9 ho | h_13 ho | h_16 ho | h_17 ho =>
    simp [ho, plainForm_eq_none_iff]
  case h_4 ho | h_14 ho | h_15 ho => simp [ho, byteForm_eq_none_iff]
  case h_5 ho | h_10 ho | h_20 ho => simp [ho, halfForm_eq_none_iff]
  case h_7 ho => simp [ho, roundForm_eq_none_iff]
  case h_11 ho | h_12 ho | h_18 ho | h_19 ho => simp [ho, textForm_eq_none_iff]
  case h_21 => simp_all

end

theorem decode_eq_none_iff {w : CmdWord} :
    decode w = none ↔ zeroField w ≠ 0 ∨ decodeOpc (opcField w) (xField w) (immField w) = none := by
  rw [decode, ite_eq_right_iff, imp_iff_not_or]

/-- Bit 23 is the `X` field (R70). -/
theorem xField_eq_one_iff {w : CmdWord} : xField w = 1 ↔ w.getLsbD 23 = true := by
  rw [← BitVec.toNat_inj, toNat_xField, BitVec.getLsbD, Nat.testBit_eq_decide_div_mod_eq]
  simp

/-- Settles O3: the four fields of the word as the statement computes them, then the lookup arm by arm. -/
theorem illegalWordsAreExactlyTheListed : Obligations.IllegalWordsAreExactlyTheListed := by
  intro w opc x mustBeZero imm
  have hopc : (opcField w).toNat = opc := by
    rw [toNat_opcField, ← Nat.shiftRight_eq_div_pow, ← BitVec.toNat_ushiftRight]
  have hx : xField w = 1 ↔ x = true := xField_eq_one_iff
  have hzero : zeroField w ≠ 0 ↔ mustBeZero ≠ 0 := by
    rw [Ne, ← BitVec.toNat_inj, toNat_zeroField, ← Nat.shiftRight_eq_div_pow, ← BitVec.toNat_ushiftRight]; rfl
  have himm : (immField w).toNat = imm := toNat_immField w
  rw [decode_eq_none_iff, decodeOpc_eq_none_iff, hopc, hx, hzero, himm, or_left_comm]

/-! ### The match/mask table (R73) -/

theorem encode_and_mask {i : Instr} (hw : wellFormed i = true) :
    encode i &&& (maskRow i).mask = (maskRow i).pattern := by
  refine of_decide_eq_true (?_ : (maskRow i).accepts (encode i) = true)
  cases i
  case iput b => exact Laws.TableRow.iput b hw
  case xfer k => exact Laws.TableRow.xfer k hw
  case prnd r => exact Laws.TableRow.prnd r hw
  case sqz n => exact Laws.TableRow.sqz n hw
  case tin t => exact Laws.TableRow.tin t hw
  case tout t => exact Laws.TableRow.tout t hw
  case rget j => exact Laws.TableRow.rget j hw
  all_goals decide

/-- The words of two rows agree where both masks keep the bit, so rows whose patterns differ there are disjoint. -/
theorem rows_disjoint {a b : MaskRow} (h : a.pattern &&& b.mask ≠ b.pattern &&& a.mask) (w : CmdWord) :
    ¬ (w &&& a.mask = a.pattern ∧ w &&& b.mask = b.pattern) := by
  rintro ⟨ha, hb⟩
  rw [← ha, ← hb, BitVec.and_assoc, BitVec.and_assoc, BitVec.and_comm a.mask] at h
  exact h rfl

theorem eq_of_and_allOnes {w p : CmdWord} (h : w &&& 0xFFFFFFFF = p) : w = p := by
  rw [← h]; exact BitVec.and_allOnes.symm

/-- A word that satisfies a row with an `n`-bit operand is the row's opcode and an immediate of `n` bits. -/
theorem decode_of_operandRow {w mask pattern : CmdWord} {n : Nat} (hn : n ≤ 16)
    (hmask : mask = BitVec.allOnes 32 <<< n) (hpattern : pattern.toNat % 2 ^ 24 = 0)
    (h : w &&& mask = pattern) :
    decode w = decodeOpc (opcField pattern) 0 (immField w) ∧ (immField w).toNat < 2 ^ n := by
  have hlow : w.toNat % 2 ^ n < 2 ^ n := Nat.mod_lt _ (Nat.two_pow_pos n)
  have hle : 2 ^ n ≤ 2 ^ 16 := Nat.pow_le_pow_right (by omega) hn
  have hopc := toNat_opcField pattern
  have hhigh : w.toNat / 2 ^ n * 2 ^ n = pattern.toNat := by rw [← Laws.toNat_and_high, ← hmask, h]
  have hw : w.toNat = (opcField pattern).toNat * 2 ^ 24 + w.toNat % 2 ^ n := by
    have := Nat.div_add_mod' w.toNat (2 ^ n)
    omega
  have himm : (immField w).toNat = w.toNat % 2 ^ n := by rw [toNat_immField]; omega
  have hpack : packWord (opcField pattern) 0 0 (immField w) = w := by
    refine BitVec.eq_of_toNat_eq ?_
    rw [toNat_packWord, himm]
    simpa using hw.symm
  exact ⟨(congrArg decode hpack).symm.trans (decode_packWord _ 0 _), himm ▸ hlow⟩

theorem byteForm_of_lt {imm : BitVec 16} {mk : BitVec 8 → Instr} (h : imm.toNat < 2 ^ 8) :
    byteForm 0 imm mk = some (mk (imm.extractLsb' 0 8)) :=
  byteForm_eq_some_iff.mpr ⟨rfl, extract_high8_eq_zero_iff.mpr (by omega), rfl⟩

theorem roundForm_of_le {imm : BitVec 16} (h : imm.toNat ≤ 23) :
    roundForm 0 imm = some (.prnd (imm.extractLsb' 0 5)) := by
  obtain ⟨hhigh, hlow⟩ := round_operand_iff.mpr h
  exact roundForm_eq_some_iff.mpr ⟨rfl, hhigh, hlow, rfl⟩

/-- A word that satisfies a row decodes to a command of that row. The cases are grouped by the row's operand (R71). -/
theorem decode_of_row {w : CmdWord} {row : Instr} (hrow : row ∈ tableRows)
    (h : w &&& (maskRow row).mask = (maskRow row).pattern) (hround : row = .prnd 0 → w.toNat % 32 ≤ 23) :
    ∃ i, decode w = some i ∧ maskRow i = maskRow row := by
  cases row
  case iput b | tin b | tout b =>
    obtain rfl : b = 0 := by simpa [tableRows] using hrow
    obtain ⟨hd, hlt⟩ := decode_of_operandRow (n := 8) (by omega) rfl rfl h
    exact ⟨_, hd.trans (byteForm_of_lt hlt), rfl⟩
  case xfer k | sqz k | rget k =>
    obtain rfl : k = 0 := by simpa [tableRows] using hrow
    obtain ⟨hd, _⟩ := decode_of_operandRow (n := 16) (by omega) rfl rfl h
    exact ⟨_, hd, rfl⟩
  case prnd r =>
    obtain rfl : r = 0 := by simpa [tableRows] using hrow
    obtain ⟨hd, hlt⟩ := decode_of_operandRow (n := 5) (by omega) rfl rfl h
    have hle := hround rfl
    have himm := toNat_immField w
    exact ⟨_, hd.trans (roundForm_of_le (by omega)), rfl⟩
  all_goals exact ⟨_, congrArg decode (eq_of_and_allOnes h), rfl⟩

/-- Settles O4: a row's word is decoded by its fields; two rows' patterns differ on a bit that both masks keep. -/
theorem maskTableAgreesWithDecoder : Obligations.MaskTableAgreesWithDecoder := by
  refine ⟨fun w i hd => ?_, fun w row hrow h hround => decode_of_row hrow h hround, ?_⟩
  · obtain ⟨rfl, hw⟩ := encode_of_decode hd
    exact encode_and_mask hw
  · have hclash : tableRows.Pairwise fun a b =>
        (maskRow a).pattern &&& (maskRow b).mask ≠ (maskRow b).pattern &&& (maskRow a).mask := by decide
    exact hclash.imp rows_disjoint

end Sys2Proof

namespace Sys2Proof.Machine

/-! ### The step takes the pushed word (R76) -/

/-- Settles O6: the step takes the push, and the word taken decodes. -/
theorem stepRunsTheDecodedCommand : Obligations.StepRunsTheDecodedCommand :=
  fun _ _ _ _ hm hd => (step_push hm).trans (takeWord_some hd _)

/-- Settles O11: the cases are the host's next move. -/
theorem everyStateHasANextState : Obligations.EveryStateHasANextState := by
  refine ⟨fun s => ?_, fun _ => step_idle⟩
  match hm : s.moves with
  | [] => exact ⟨s, step_idle hm⟩
  | .assertReset :: _ => exact ⟨_, step_reset hm⟩
  | .push w :: _ => rw [step_push hm]; exact takeWord_total w _

end Sys2Proof.Machine

/-! SUPPORT. The step mappings by lane coordinates, and the commands of the permutation engine (R102 to R111). -/

namespace Sys2Proof.Machine

/-! ### The step mappings by lane coordinates (R102 to R105) -/

theorem laneAt_eq_getElem (a : Lanes) {x y i : Nat} (hi : i < 25) (h : x % 5 + 5 * (y % 5) = i) :
    laneAt a x y = a[i] := by
  subst h; rfl

theorem rotAt_eq_getElem {x y i : Nat} (hi : i < 25) (h : x % 5 + 5 * (y % 5) = i) : rotAt x y = rotations[i] := by
  subst h; rfl

/-- Column `x` is the lanes with numbers `x`, `x+5`, `x+10`, `x+15` and `x+20` (R102). -/
theorem columnParity_eq (a : Lanes) {n : Nat} {x : Fin 5} (h : n = x.val) :
    columnParity a n = a[x.val] ^^^ a[x.val + 5] ^^^ a[x.val + 10] ^^^ a[x.val + 15] ^^^ a[x.val + 20] := by
  subst h
  simp [columnParity, laneAt, Nat.mod_eq_of_lt x.isLt]

/-- Settles O30: the column of lane `x + 5y` is `x`, so its neighbours are `x - 1` and `x + 1`. -/
theorem thetaXorsColumnParities : Obligations.ThetaXorsColumnParities := by
  intro a c x y
  have hprev : (x.val + 5 * y.val + 4) % 5 = (x + 4).val := by rw [Fin.val_add]; omega
  have hnext : (x.val + 5 * y.val + 1) % 5 = (x + 1).val := by rw [Fin.val_add]; omega
  rw [getElem_theta, columnParity_eq a hprev, columnParity_eq a hnext]

/-- Rho and pi take `(x, y)` to lane number `d` exactly when `(x, y)` is the position that `rhopi` reads for `d`. -/
theorem relocation_eq_iff (x y : Fin 5) {d : Nat} (hd : d < 25) :
    y.val + 5 * (2 * x + 3 * y : Fin 5).val = d ↔ x.val = (d % 5 + 3 * (d / 5)) % 5 ∧ y.val = d % 5 := by
  have hrow : (2 * x + 3 * y : Fin 5).val = (2 * x.val + 3 * y.val) % 5 := by
    rw [Fin.val_add, Fin.val_mul, Fin.val_mul]; omega
  have hinverse : (2 * x.val + 3 * (d % 5)) % 5 = d / 5 ↔ x.val = (d % 5 + 3 * (d / 5)) % 5 := by omega
  rw [hrow, ← hinverse]
  constructor
  · intro h
    have hy : y.val = d % 5 := by omega
    exact ⟨by omega, hy⟩
  · rintro ⟨hdiv, hy⟩
    rw [hy, hdiv]
    omega

/-- Settles O31: every lane number of the result has one source position. -/
theorem rhoPiRelocatesEveryLane : Obligations.RhoPiRelocatesEveryLane := by
  constructor
  · intro a x y
    have hd : y.val + 5 * (2 * x + 3 * y : Fin 5).val < 25 := by omega
    obtain ⟨hx, hy⟩ := (relocation_eq_iff x y hd).mp rfl
    rw [getElem_rhopi, laneAt_eq_getElem a (i := x.val + 5 * y.val) (by omega) (by omega),
      rotAt_eq_getElem (i := x.val + 5 * y.val) (by omega) (by omega)]
  · intro d
    refine ⟨(⟨(d.val % 5 + 3 * (d.val / 5)) % 5, by omega⟩, ⟨d.val % 5, by omega⟩), ?_, fun q hq => ?_⟩
    · exact (relocation_eq_iff _ _ d.isLt).mpr ⟨rfl, rfl⟩
    · obtain ⟨hx, hy⟩ := (relocation_eq_iff _ _ d.isLt).mp hq
      exact Prod.ext (Fin.ext hx) (Fin.ext hy)

theorem getElem_iota_zero (e : Lanes) (r : Fin 24) : (iota e r)[0] = e[0] ^^^ roundConstants[r] :=
  Vector.getElem_set_self _

theorem getElem_iota_of_ne_zero (e : Lanes) (r : Fin 24) {i : Nat} (hi : i < 25) (h : i ≠ 0) : (iota e r)[i] = e[i] :=
  Vector.getElem_set_ne _ hi h.symm

/-- Settles O32: chi's three lanes stand in row `y`, iota's in lane 0. -/
theorem chiAndIotaActAsStated : Obligations.ChiAndIotaActAsStated := by
  refine ⟨fun b x y => ?_, fun e r => ⟨getElem_iota_zero e r, fun i hi => ?_⟩⟩
  · have hnext : (x + 1).val = (x.val + 1) % 5 := Fin.val_add x 1
    have hnext2 : (x + 2).val = (x.val + 2) % 5 := Fin.val_add x 2
    rw [getElem_chi, laneAt_eq_getElem b (i := x.val + 5 * y.val) (by omega) (by omega),
      laneAt_eq_getElem b (i := (x + 1).val + 5 * y.val) (by omega) (by omega),
      laneAt_eq_getElem b (i := (x + 2).val + 5 * y.val) (by omega) (by omega)]
  · exact getElem_iota_of_ne_zero e r i.isLt (Fin.val_ne_of_ne hi)

/-! ### The commands of the permutation engine (R109 to R111) -/

section
variable {s t u : State}

theorem exec_of_effect_ok {i : Instr} (hs : s.err = false) (h : effectOf i s = .ok u) : exec i s = .next u.advance :=
  (exec_unlatched i hs).trans (takeCommand_ok hs h)

/-- `PRND r` with a legal index applies round `r` (R110). -/
theorem exec_prnd_of_lt {r : BitVec 5} (hs : s.err = false) (h : r.toNat < 24) :
    exec (.prnd r) s = .next { s with lanes := keccakRound s.lanes ⟨r.toNat, h⟩, cp := s.cp + 1 } := by
  have heffect : effectOf (.prnd r) s = .ok { s with lanes := keccakRound s.lanes ⟨r.toNat, h⟩ } :=
    prndEffect_ok_iff.mpr ⟨h, rfl⟩
  -- elaborated without the expected type, which would be unified field by field through the round
  have hexec := exec_of_effect_ok hs heffect
  exact hexec

theorem execAll_cons_of_next {i : Instr} (is : List Instr) (h : exec i s = .next t) :
    execAll (i :: is) s = execAll is t := by
  simp only [execAll, h]

/-- A list of `PRND` commands applies the rounds it lists, in its order, and moves `CP` by its length. -/
theorem execAll_prnd (rs : List (Fin 24)) (hs : s.err = false) :
    execAll (rs.map fun r : Fin 24 => .prnd (BitVec.ofNat 5 r)) s
      = .next { s with lanes := rs.foldl keccakRound s.lanes, cp := s.cp + BitVec.ofNat 32 rs.length } := by
  induction rs generalizing s with
  | nil => simp [execAll]
  | cons r rs ih =>
    have hr : (BitVec.ofNat 5 r).toNat = r.val := Nat.mod_eq_of_lt (by omega)
    have hround := exec_prnd_of_lt hs (show (BitVec.ofNat 5 r).toNat < 24 by omega)
    rw [List.map_cons, execAll_cons_of_next _ hround, ih]
    · simp [hr, Nat.add_comm rs.length, BitVec.ofNat_add, BitVec.add_assoc]
    · exact hs

end

/-- Settles O33: `PCLR` leaves the all-zero state. -/
theorem pclrClearsTheState : Obligations.PclrClearsTheState := by
  refine ⟨by decide, fun s hs => ⟨_, exec_of_effect_ok hs (pclrEffect_eq s), rfl, fun i => ?_⟩⟩
  exact getElem_zeroLanes i.val i.isLt

theorem encode_prnd (r : BitVec 5) : encode (.prnd r) = 0x11000000 ||| r.setWidth 32 := by
  revert r; decide

theorem decode_encode_prnd_of_ge {r : BitVec 5} (h : 24 ≤ r.toNat) : decode (encode (.prnd r)) = none := by
  have himm : 23 < (r.setWidth 16).toNat := by rw [BitVec.toNat_setWidth]; omega
  exact (decode_packWord 0x11 0 (r.setWidth 16)).trans (roundForm_eq_none_iff.mpr (.inr himm))

/-- Settles O34: a legal index is a round, any other an illegal word. -/
theorem prndAppliesOneRound : Obligations.PrndAppliesOneRound :=
  fun r _ => ⟨encode_prnd r, fun h hs => exec_prnd_of_lt hs h, decode_encode_prnd_of_ge⟩

/-- Settles O35: the permutation is its rounds in ascending order (R107), and so is the list of commands. -/
theorem permIsTheAscendingRounds : Obligations.PermIsTheAscendingRounds := by
  refine ⟨by decide, fun s hs => ?_⟩
  have hrounds := execAll_prnd (List.finRange 24) hs
  rw [← keccakF_eq_foldl, List.length_finRange] at hrounds
  have hlist : ((List.range 24).map fun r => Instr.prnd (BitVec.ofNat 5 r))
      = (List.finRange 24).map fun r : Fin 24 => .prnd (BitVec.ofNat 5 r) := by
    rw [← List.map_coe_finRange_eq_range, List.map_map]; rfl
  exact ⟨_, _, exec_of_effect_ok hs (permEffect_eq s), (congrArg (execAll · s) hlist).trans hrounds, rfl, rfl⟩

end Sys2Proof.Machine

/-! SUPPORT. The sponge: padding (R120), absorbing (R121, R126), the output stream (R123, R127), the digest (R124, R128). -/

namespace Sys2Proof.Machine

/-! ### The padded message (R120) -/

/-- The message's length is one byte below a multiple of the rate: the first and the last padding byte are one. -/
theorem pad_eq_of_one_byte {m : List Byte} (h : m.length % 136 = 135) : pad m = m ++ [0x81] := by
  have hroom : 136 * (m.length / 136 + 1) - m.length - 1 = 0 := by omega
  exact (congrArg (fun k => xorLast 0x80 (m ++ 0x01 :: zeros k)) hroom).trans (xorLast_append_single 0x80 m 0x01)

theorem pad_eq_of_more_bytes {m : List Byte} (h : m.length % 136 ≠ 135) :
    pad m = m ++ (0x01 :: List.replicate (134 - m.length % 136) 0x00 ++ [0x80]) := by
  have hroom : 136 * (m.length / 136 + 1) - m.length - 1 = 134 - m.length % 136 + 1 := by omega
  have hzeros : m ++ 0x01 :: zeros (134 - m.length % 136 + 1)
      = (m ++ 0x01 :: List.replicate (134 - m.length % 136) 0x00) ++ [0x00] := by
    simp [zeros, List.replicate_succ']
  calc pad m
    _ = xorLast 0x80 (m ++ 0x01 :: zeros (134 - m.length % 136 + 1)) :=
        congrArg (fun k => xorLast 0x80 (m ++ 0x01 :: zeros k)) hroom
    _ = (m ++ 0x01 :: List.replicate (134 - m.length % 136) 0x00) ++ [0x80] := by
        rw [hzeros, xorLast_append_single]; rfl
    _ = _ := by simp

/-- Settles O36: the padding is one byte or more, so the XOR of `0x80` meets the `0x01` or a zero. -/
theorem paddingShape : Obligations.PaddingShape := by
  intro m
  have htake : (pad m).take m.length = m := by
    by_cases h : m.length % 136 = 135
    · rw [pad_eq_of_one_byte h]; exact List.take_left
    · rw [pad_eq_of_more_bytes h]; exact List.take_left
  refine ⟨length_pad m, htake, fun h => ?_, fun h => ?_⟩
  · rw [pad_eq_of_one_byte h]; exact List.drop_left
  · rw [pad_eq_of_more_bytes h]; exact List.drop_left

/-! ### The output stream (R123, R127) -/

/-- A squeeze of `m + n` bytes is one of `m` bytes and then one of `n` bytes (R127). -/
theorem squeeze_add (a : Lanes) (p m n : Nat) : squeeze a p (m + n) =
    ⟨(squeeze (squeeze a p m).lanes (squeeze a p m).spos n).lanes,
      (squeeze (squeeze a p m).lanes (squeeze a p m).spos n).spos,
      (squeeze a p m).out ++ (squeeze (squeeze a p m).lanes (squeeze a p m).spos n).out⟩ := by
  induction m generalizing a p with
  | zero => simp
  | succ m ih =>
    rw [Nat.add_right_comm]
    by_cases hp : p = 136
    · subst hp; simp only [squeeze_succ_permute, ih, List.cons_append]
    · simp only [squeeze_succ hp, ih, List.cons_append]

/-- Byte `j` of the unbounded output stream of `a`, counted from byte 0 of its rate part: 136 bytes of each permutation. -/
def streamByte (a : Lanes) (j : Nat) : Byte := stateByte (keccakF^[j / 136] a) (j % 136)

/-- The stream goes on alike from the lanes that gave its byte `j`. -/
theorem streamByte_iterate_succ (a : Lanes) (j : Nat) :
    streamByte (keccakF^[j / 136] a) (j % 136 + 1) = streamByte a (j + 1) := by
  have hdiv : (j % 136 + 1) / 136 + j / 136 = (j + 1) / 136 := by omega
  have hmod : (j % 136 + 1) % 136 = (j + 1) % 136 := by omega
  rw [streamByte, streamByte, ← Function.iterate_add_apply, hdiv, hmod]

theorem squeeze_single (a : Lanes) {p : Nat} (hp : p ≤ 136) :
    squeeze a p 1 = ⟨keccakF^[p / 136] a, p % 136 + 1, [streamByte a p]⟩ := by
  rcases Nat.lt_or_eq_of_le hp with hlt | rfl
  · simp [squeeze_succ hlt.ne, streamByte, Nat.div_eq_of_lt hlt, Nat.mod_eq_of_lt hlt]
  · simp [squeeze_succ_permute, streamByte]

/-- What a squeeze of at least one byte leaves and emits; its last byte is byte `p + n` of the stream. -/
theorem squeeze_succ_eq_stream (a : Lanes) {p : Nat} (hp : p ≤ 136) (n : Nat) : squeeze a p (n + 1) =
    ⟨keccakF^[(p + n) / 136] a, (p + n) % 136 + 1, (List.range' p (n + 1)).map (streamByte a)⟩ := by
  induction n with
  | zero => exact squeeze_single a hp
  | succ n ih =>
    have hq : (p + n) % 136 + 1 ≤ 136 := by omega
    have hdiv : ((p + n) % 136 + 1) / 136 + (p + n) / 136 = (p + (n + 1)) / 136 := by omega
    have hmod : ((p + n) % 136 + 1) % 136 = (p + (n + 1)) % 136 := by omega
    have hrange : List.range' p (n + 1 + 1) = List.range' p (n + 1) ++ [p + (n + 1)] := by
      rw [List.range'_concat, Nat.one_mul]
    rw [squeeze_add, ih, squeeze_single _ hq, ← Function.iterate_add_apply, hdiv, hmod, streamByte_iterate_succ, hrange,
      List.map_append]
    rfl

/-- Settles O38: nothing happens for `n = 0`; else the stream is read from byte `spos` on. -/
theorem squeezeEmitsTheOutputStream : Obligations.SqueezeEmitsTheOutputStream := by
  intro a p n hp
  refine ⟨length_squeeze a p n, ?_⟩
  cases n with
  | zero => simp [squeezePerms]
  | succ n =>
    rw [squeeze_succ_eq_stream a hp]
    refine ⟨fun k hk => ?_, rfl, rfl⟩
    simp [hk, streamByte]

/-! ### ABS and SQZ (R126, R127) -/

/-- The word of a command without `X`: its opcode above its immediate (R70, R78). -/
theorem packWord_eq_or (opc : BitVec 8) (imm : BitVec 16) :
    packWord opc 0 0 imm = opc.setWidth 32 <<< 24 ||| imm.setWidth 32 := by
  refine BitVec.eq_of_toNat_eq ?_
  have hopc := opc.isLt
  have himm : imm.toNat < 2 ^ 24 := by omega
  have hfit : opc.toNat <<< 24 < 2 ^ 32 := by rw [Nat.shiftLeft_eq]; omega
  rw [toNat_packWord, BitVec.toNat_or, BitVec.toNat_shiftLeft, BitVec.toNat_setWidth, BitVec.toNat_setWidth,
    Nat.mod_eq_of_lt (by omega : opc.toNat < 2 ^ 32), Nat.mod_eq_of_lt (by omega : imm.toNat < 2 ^ 32),
    Nat.mod_eq_of_lt hfit, ← Nat.shiftLeft_add_eq_or_of_lt himm, Nat.shiftLeft_eq]
  simp

theorem encode_sqz (n : BitVec 16) : encode (.sqz n) = 0x21000000 ||| n.setWidth 32 := packWord_eq_or 0x21 n

/-- The padded message has `len div 136 + 1` blocks (R120, R121). -/
theorem absorb_pad (a : Lanes) (m : List Byte) : absorb a (pad m) =
    (List.range (m.length / 136 + 1)).foldl (fun acc k => absorbBlock acc (slice (pad m) (136 * k) 136)) a := by
  have hblocks : (pad m).length / 136 = m.length / 136 + 1 := by rw [length_pad]; omega
  rw [absorb, hblocks]

section
variable {s : State}

theorem exec_abs (hs : s.err = false) :
    exec .abs s = .next { s with lanes := absorb s.lanes (pad s.ibuf), spos := 0, cp := s.cp + 1 } :=
  exec_of_effect_ok (i := .abs) hs (absEffect_eq s)

theorem exec_sqz_of_fits {n : BitVec 16} (hs : s.err = false) (h : s.params.bufFits n.toNat = true) :
    exec (.sqz n) s = .next { s with
      lanes := (squeeze s.lanes s.spos n.toNat).lanes, spos := (squeeze s.lanes s.spos n.toNat).spos
      obuf := (squeeze s.lanes s.spos n.toNat).out, cp := s.cp + 1 } :=
  exec_of_effect_ok (i := .sqz n) hs (sqzEffect_ok_iff.mpr ⟨h, rfl⟩)

/-- What `HASH` (with `render` the identity) and `HASH.X` leave (R128, R129). -/
theorem exec_of_hashInto {i : Instr} {render : List Byte → List Byte} (hs : s.err = false)
    (h : effectOf i s = .ok (hashInto render s)) :
    exec i s = .next { s with
      lanes := hashLanes s.ibuf, spos := 32, obuf := render (keccak256 s.ibuf), cp := s.cp + 1 } := by
  rw [hashInto_eq] at h
  exact exec_of_effect_ok hs h

end

/-- Settles O39: the padded buffer's blocks, counted. -/
theorem absAbsorbsTheInputBuffer : Obligations.AbsAbsorbsTheInputBuffer := by
  refine ⟨by decide, fun s hs => ?_⟩
  rw [exec_abs hs, absorb_pad]
  rfl

/-- Settles O40: the bytes fit the buffer or the command faults, and `ECMD` is its word. -/
theorem sqzEmitsOrFaults : Obligations.SqzEmitsOrFaults := by
  refine fun n s => ⟨encode_sqz n, exec_sqz_of_fits, fun hs h => ?_⟩
  have heffect : effectOf (.sqz n) s = .error (raise0 .capacityFault) := sqzEffect_error_iff.mpr ⟨h, rfl⟩
  rw [exec_unlatched _ hs, takeCommand_error hs heffect, encode_sqz]
  rfl

/-- Settles O41: `squeeze_add`, when the bytes of both fit the buffer. -/
theorem successiveSqueezesContinueTheStream : Obligations.SuccessiveSqueezesContinueTheStream := by
  intro s m n mn hs hsum hfits
  have hm : s.params.bufFits m.toNat = true := Params.bufFits_mono (by omega) hfits
  have hn : s.params.bufFits n.toNat = true := Params.bufFits_mono (by omega) hfits
  refine ⟨_, _, _, exec_sqz_of_fits hs hm, exec_sqz_of_fits ?_ ?_, exec_sqz_of_fits hs hfits, ?_⟩
  · exact hs
  · exact hn
  · simp [hsum, squeeze_add]

/-! ### The digest (R124) and HASH (R128, R129) -/

/-- The bytes of a lane are eight state bytes (R12, R22). -/
theorem lebytes64_getElem (a : Lanes) {i : Nat} (hi : i < 25) :
    lebytes64 a[i] = (List.range' (8 * i) 8).map (stateByte a) := by
  rw [List.range'_eq_map_range, List.map_map, lebytes64]
  refine List.map_congr_left fun j hj => ?_
  have hj : j < 8 := List.mem_range.mp hj
  have hlane : (8 * i + j) / 8 = i := by omega
  have hbyte : (8 * i + j) % 8 = j := by omega
  simp [stateByte_of_lt a (show 8 * i + j < 200 by omega), hlane, hbyte]

/-- Settles O42: the first 32 state bytes, eight to a lane. -/
theorem digestIsTheFirstFourLanes : Obligations.DigestIsTheFirstFourLanes := by
  refine fun m => ⟨length_keccak256 m, ?_⟩
  have hbytes : List.range' 0 32
      = List.range' (8 * 0) 8 ++ List.range' (8 * 1) 8 ++ List.range' (8 * 2) 8 ++ List.range' (8 * 3) 8 := by decide
  rw [keccak256_eq, hbytes]
  simp only [List.map_append, lebytes64_getElem]

/-- Settles O43: the hash's registers, with either rendering of the digest. -/
theorem hashLeavesTheDigest : Obligations.HashLeavesTheDigest := by
  refine ⟨by decide, by decide, fun s hs => ⟨?_, ?_⟩⟩
  · exact exec_of_hashInto (i := .hash) hs (hashEffect_eq s)
  · exact exec_of_hashInto (i := .hashX) hs (hashXEffect_eq s)

/-- The digest is the first 32 bytes squeezed, and needs no permutation (R124). -/
theorem squeeze_hashLanes (m : List Byte) : squeeze (hashLanes m) 0 32 = ⟨hashLanes m, 32, keccak256 m⟩ := by
  rw [squeeze_window (by decide), keccak256_eq]

/-- The registers `HASH` leaves, from the sequence; `CP` counts its three commands (R128). -/
theorem execAll_pclr_abs_sqz {s : State} (hs : s.err = false) (hfits : s.params.bufFits 32 = true) :
    execAll [.pclr, .abs, .sqz 32] s = .next { s with
      lanes := hashLanes s.ibuf, spos := 32, obuf := keccak256 s.ibuf, cp := s.cp + 1 + 1 + 1 } := by
  have hpclr : exec .pclr s = .next { s with lanes := zeroLanes, spos := 0, cp := s.cp + 1 } :=
    exec_of_effect_ok (i := .pclr) hs (pclrEffect_eq s)
  have habs : exec .abs { s with lanes := zeroLanes, spos := 0, cp := s.cp + 1 }
      = .next { s with lanes := hashLanes s.ibuf, spos := 0, cp := s.cp + 1 + 1 } := exec_abs hs
  have hsqz := exec_sqz_of_fits (n := 32)
    (s := { s with lanes := hashLanes s.ibuf, spos := 0, cp := s.cp + 1 + 1 }) hs hfits
  rw [execAll_cons_of_next _ hpclr, execAll_cons_of_next _ habs, execAll_cons_of_next _ hsqz]
  simp [execAll, squeeze_hashLanes]

/-- Settles O44: `PCLR` gives the all-zero state from which `HASH` absorbs, and the squeeze is the digest's. -/
theorem hashIsPclrAbsSqz : Obligations.HashIsPclrAbsSqz := by
  intro s hs hp
  have hhash := exec_of_hashInto (i := .hash) hs (hashEffect_eq s)
  exact ⟨_, _, hhash, execAll_pclr_abs_sqz hs (Params.bufFits_of_legal hp (by decide)), rfl⟩

/-! ### The commands that never fault (R220, R233) -/

theorem effectOf_ok_of_fault_free {i : Instr} (s : State)
    (h : i ∈ [.nop, .clrerr, .iclr, .pclr, .perm, .abs, .hash, .hashX, .sel, .selX, .dclr, .aclr]
      ∨ ∃ r, i = .prnd r ∧ r.toNat ≤ 23) : ∃ u, effectOf i s = .ok u := by
  rcases h with h | ⟨r, rfl, hr⟩
  · simp only [List.mem_cons, List.not_mem_nil, or_false] at h
    rcases h with rfl | rfl | rfl | rfl | rfl | rfl | rfl | rfl | rfl | rfl | rfl | rfl <;> exact ⟨_, rfl⟩
  · exact ⟨_, prndEffect_ok_iff.mpr ⟨by omega, rfl⟩⟩

/-- Settles O18: such a command has its effect, and no effect sets `ERR`. -/
theorem faultFreeCommandsComplete : Obligations.FaultFreeCommandsComplete := by
  intro i s hi hs
  obtain ⟨u, hu⟩ := effectOf_ok_of_fault_free s hi
  exact ⟨u.advance, exec_of_effect_ok hs hu, (State.advance_err u).trans (effectOf_ok_unlatched hs hu)⟩

end Sys2Proof.Machine

/-! SUPPORT. The selector, the descriptor and the staged arguments (R150 to R155), hex text (R143, R144). -/

namespace Sys2Proof.Machine

/-! ### The descriptor and the staged arguments (R150 to R155) -/

/-- A command whose effect raises a fault without a position records its code and its own word (R220, R227). -/
theorem exec_of_effect_raise0 {s : State} {i : Instr} {k : FaultKind} (hs : s.err = false)
    (h : effectOf i s = .error (raise0 k)) : exec i s = .next { s with
      err := true, ecode := faultCode k, epos := 0, ecmd := encode i, ecp := s.cp, cp := s.cp + 1 } :=
  (exec_unlatched i hs).trans (takeCommand_error hs h)

/-- The word of a command with an operand in the low byte (R71, R78). -/
theorem packWord_byte_eq_or (opc b : BitVec 8) :
    packWord opc 0 0 (b.setWidth 16) = opc.setWidth 32 <<< 24 ||| b.setWidth 32 := by
  rw [packWord_eq_or, BitVec.setWidth_setWidth (by decide)]

theorem encode_tin (t : BitVec 8) : encode (.tin t) = 0x32000000 ||| t.setWidth 32 := packWord_byte_eq_or 0x32 t

theorem encode_tout (t : BitVec 8) : encode (.tout t) = 0x33000000 ||| t.setWidth 32 := packWord_byte_eq_or 0x33 t

/-- The selector register takes the first four bytes of a digest (R149, R150). -/
theorem selectorVector_toList {d : List Byte} (hd : 4 ≤ d.length) :
    (Vector.ofFn fun i : Fin 4 => d.getD i.val 0).toList = d.take 4 := by
  match d, hd with
  | _ :: _ :: _ :: _ :: _, _ => rfl

/-- Settles O45: the hash's registers, and the selector from the digest's first bytes, with either rendering of them. -/
theorem selDerivesTheSelector : Obligations.SelDerivesTheSelector := by
  refine ⟨by decide, by decide, fun s hs => ?_⟩
  have hsel := selEffect_eq s
  have hselX := selXEffect_eq s
  rw [selInto_eq] at hsel hselX
  refine ⟨_, _, exec_of_effect_ok (i := .sel) hs hsel, exec_of_effect_ok (i := .selX) hs hselX, rfl, ?_, rfl⟩
  exact selectorVector_toList (by simp [length_keccak256])

/-- Settles O46: the cleared selector is four zero bytes. -/
theorem dclrClearsTheDescriptor : Obligations.DclrClearsTheDescriptor :=
  ⟨by decide, fun s hs => ⟨_, exec_of_effect_ok (i := .dclr) hs (dclrEffect_eq s), rfl, rfl⟩⟩

/-- Settles O47: either list has room for the tag or the command faults, and `ECMD` is its word. -/
theorem typeTagsAreAppended : Obligations.TypeTagsAreAppended := by
  intro t s
  refine ⟨encode_tin t, encode_tout t, fun hs hroom => ?_, fun hs hfull => ?_, fun hs hroom => ?_, fun hs hfull => ?_⟩
  · exact exec_of_effect_ok (i := .tin t) hs (tinEffect_ok_iff.mpr ⟨hroom, rfl⟩)
  · rw [exec_of_effect_raise0 (i := .tin t) hs (tinEffect_error_iff.mpr ⟨hfull, rfl⟩), encode_tin]; rfl
  · exact exec_of_effect_ok (i := .tout t) hs (toutEffect_ok_iff.mpr ⟨hroom, rfl⟩)
  · rw [exec_of_effect_raise0 (i := .tout t) hs (toutEffect_error_iff.mpr ⟨hfull, rfl⟩), encode_tout]; rfl

/-- Settles O48: `APUSH` has room for the copy or faults. -/
theorem argumentsAreStaged : Obligations.ArgumentsAreStaged := by
  refine ⟨by decide, by decide, fun s hs => ⟨?_, fun hroom => ?_, fun hfull => ?_⟩⟩
  · exact exec_of_effect_ok (i := .aclr) hs (aclrEffect_eq s)
  · exact exec_of_effect_ok (i := .apush) hs (apushEffect_ok_iff.mpr ⟨hroom, rfl⟩)
  · exact exec_of_effect_raise0 (i := .apush) hs (apushEffect_error_iff.mpr ⟨hfull, rfl⟩)

/-! ### Hex text (R143, R144) -/

/-- Two digits of a byte read back as the byte. -/
theorem unhexDigits_hexDigits (b : List Byte) : unhexDigits (hexDigits b) = some b := by
  induction b with
  | nil => rfl
  | cons x xs ih =>
    have hx := x.isLt
    have hhigh := hexVal_hexDigit (x.toNat / 16) (by omega)
    have hlow := hexVal_hexDigit (x.toNat % 16) (Nat.mod_lt _ (by decide))
    simp [hexDigits, unhexDigits, hhigh, hlow, ih, Nat.div_add_mod]

theorem unhex_hex0x (b : List Byte) : unhex (hex0x b) = some b := by
  rw [unhex, strip0x_hex0x, unhexDigits_hexDigits]

/-- Settles O50: `unhex` takes the leading `0x` off, and digits never begin with one. -/
theorem hexTextReadsBack : Obligations.HexTextReadsBack := by
  refine fun b => ⟨unhex_hex0x b, ?_, length_hex0x b⟩
  have hdigits : (hex0x b).drop 2 = hexDigits b := rfl
  rw [hdigits, unhex, strip0x_hexDigits, unhexDigits_hexDigits]

end Sys2Proof.Machine

/-! SUPPORT. What DEC stages: the results of a payload that holds every declared output (R190 to R199, R205). -/

namespace Sys2Proof.Machine

/-! ### The value of one output (R194 to R199) -/

/-- Bit 0 of the last byte is the parity of the word (R195). -/
theorem boolResult_eq {w : List Byte} (hw : w.length = 32) :
    boolResult w = if be w % 2 = 1 then [0x01] else [0x00] := by
  rcases List.eq_nil_or_concat' w with rfl | ⟨init, x, rfl⟩
  · cases hw
  · have hinit : init.length = 31 := by simpa using hw
    have hlast : (init ++ [x]).getD 31 0 = x := by simp [← hinit]
    have hparity : be (init ++ [x]) % 2 = x.toNat % 2 := by rw [be_append_single]; omega
    rw [boolResult, hlast, hparity]
    simp [BitVec.getLsbD]

/-- The low 20 bytes of a word are its bytes from 12 on (R196). -/
theorem addressText_eq {w : List Byte} (hw : w.length = 32) : addressText w = hex0x (w.drop 12) := by
  rw [addressText, slice, List.take_of_length_le (by simp [hw])]

/-- The texts of the address words that begin at `o` in the payload (R199). -/
theorem addressTexts_slice (p : List Byte) (o n : Nat) : addressTexts (slice p o (32 * n)) n =
    (List.range n).map fun k => hex0x (slice p (o + 32 * k + 12) 20) := by
  refine List.map_congr_left fun k hk => ?_
  have hk := List.mem_range.mp hk
  rw [addressText, slice_slice (by decide), slice_slice (by omega), ← Nat.add_assoc]

theorem rdCounted_of_inside {p : List Byte} {o u j : Nat} (hlen : o + 32 ≤ p.length)
    (hbody : o + 32 + u * wordAt p o ≤ p.length) :
    rdCounted p o u j = .ok (wordAt p o, slice p (o + 32) (u * wordAt p o)) :=
  rdCounted_ok_iff.mpr ⟨hlen, hbody, rfl⟩

/-- Every type's ranges include its head word's (R191, R193). -/
theorem head_inside_of_rangesInside {p : List Byte} {j : Nat} {t : ValueType} (h : rangesInside p j t = true) :
    32 * j + 32 ≤ p.length := by
  cases t <;> simp [rangesInside] at h <;> omega

/-- An output of a supported type whose ranges are inside the payload has its result (R147). -/
theorem decValue_of_rangesInside {p : List Byte} {j : Nat} {t : ValueType} (hr : rangesInside p j t = true)
    (ht : supported t = true) : decValue p (slice p (32 * j) 32) j t = .ok (resultOf p j t) := by
  have hw : (slice p (32 * j) 32).length = 32 := length_slice (head_inside_of_rangesInside hr)
  cases t with
  | uint256 => rfl
  | bytes32 => rfl
  | bool => rw [decValue, boolResult_eq hw]; rfl
  | address => rw [decValue, addressText_eq hw]; rfl
  | string =>
    obtain ⟨_, hlen, hbody⟩ := of_decide_eq_true hr
    have hread := rdCounted_of_inside (u := 1) (j := j) hlen (by omega)
    rw [Nat.one_mul] at hread
    exact congrArg (Except.map _) hread
  | addressArray =>
    obtain ⟨_, hlen, hbody⟩ := of_decide_eq_true hr
    refine (congrArg (Except.map _) (rdCounted_of_inside hlen hbody)).trans ?_
    rw [Except.map, addressTexts_slice]
    rfl
  | unsupported tag => cases ht

/-! ### All outputs, in order (R190) -/

section
variable {par : Params} {p : List Byte}

theorem decOutput_of_readable {j : Nat} {tag : Byte} (h : outputReadable par p j (typeOfTag tag) = true) :
    decOutput par p j tag = .ok (resultOf p j (typeOfTag tag)) := by
  simp only [outputReadable, Bool.and_eq_true] at h
  obtain ⟨⟨hr, ht⟩, hfits⟩ := h
  have hhead : rd p (32 * j) 32 j = .ok (slice p (32 * j) 32) :=
    rd_ok_iff.mpr ⟨head_inside_of_rangesInside hr, rfl⟩
  simp [decOutput, hhead, decValue_of_rangesInside hr ht, hfits]

theorem decOutputs_of_readable {k : Nat} {tags : List Byte}
    (h : ∀ j (hj : j < tags.length), outputReadable par p (k + j) (typeOfTag tags[j]) = true) :
    decOutputs par p k tags = .ok ((tags.zipIdx k).map fun (tag, j) => resultOf p j (typeOfTag tag)) := by
  induction tags generalizing k with
  | nil => rfl
  | cons tag tags ih =>
    have hfirst := decOutput_of_readable (h 0 (by simp))
    have hrest := ih (k := k + 1) fun j hj => by
      rw [Nat.add_assoc, Nat.add_comm 1]
      exact h (j + 1) (by simpa using hj)
    simp only [Nat.add_zero, List.getElem_cons_zero] at hfirst
    simp [decOutputs, hfirst, hrest]

end

/-- A non-empty payload with every declared output readable decodes to their results (R190, R205). -/
theorem decPayload_of_readable {p : List Byte} {s : State} (hp : p ≠ [])
    (h : ∀ j (hj : j < s.otyp.length), outputReadable s.params p j (typeOfTag s.otyp[j]) = true) :
    decPayload p s = .ok { s with resv := s.otyp.zipIdx.map fun (tag, j) => resultOf p j (typeOfTag tag) } :=
  decPayload_ok_iff.mpr (.inr ⟨hp, _, decOutputs_of_readable (by simpa using h), rfl⟩)

/-- Settles O56: the payload is `IBUF`, or what its text denotes. -/
theorem decStagesEveryResult : Obligations.DecStagesEveryResult := by
  refine fun s p hs hp hread => ⟨fun hbytes => ?_, fun htext => ?_⟩
  · subst hbytes
    exact exec_of_effect_ok (i := .dec) hs (decPayload_of_readable hp hread)
  · exact exec_of_effect_ok (i := .decX) hs (decXEffect_ok_iff.mpr ⟨p, htext, decPayload_of_readable hp hread⟩)

end Sys2Proof.Machine

/-! SUPPORT. What ENC gives for one argument (R146, R157, R173 to R179). -/

namespace Sys2Proof.Machine

/-! ### Acceptable addresses and words (R146, R175, R176, R178) -/

/-- Text of exactly `2 * n` digits denotes `n` bytes (R175, R176). -/
theorem unhex_of_unhexExact_isSome {n : Nat} {a : List Byte} (h : (unhexExact (2 * n) a).isSome = true) :
    ∃ b, unhex a = some b ∧ b.length = n := by
  obtain ⟨b, hb⟩ := Option.isSome_iff_exists.mp h
  obtain ⟨hlen, hunhex⟩ := unhexExact_eq_some_iff.mp hb
  have := length_of_unhexDigits hunhex
  exact ⟨b, hunhex, by omega⟩

theorem word_of_lt {v pos : Nat} (h : v < 2 ^ 256) : word v pos = .ok (wordBytes v) := word_ok_iff.mpr ⟨h, rfl⟩

section
variable {a : List Byte} {i : Nat}

theorem encBool_eq :
    encBool a i = if acceptable .bool a then .ok (wordBytes (be a)) else .error ⟨.operandFault, i⟩ := by
  match a with
  | [] => rfl
  | [b] =>
    have hacc : acceptable .bool [b] = decide (b.toNat ≤ 1) := by revert b; decide
    have hbyte := b.isLt
    simp [encBool, hacc, word_of_lt (show b.toNat < 2 ^ 256 by omega), be]
  | _ :: _ :: _ => simp [encBool, acceptable]

theorem encAddr_eq :
    encAddr a i = if acceptable .address a then .ok (addressWord a) else .error ⟨.invalidAddressError, i⟩ := by
  cases h : unhexExact 40 a with
  | none => simp [encAddr, acceptable, h]
  | some b => simp [encAddr, acceptable, h, addressWord, (unhexExact_eq_some_iff.mp h).2]

theorem encB32_eq :
    encB32 a i = if acceptable .bytes32 a then .ok ((unhex a).getD []) else .error ⟨.invalidLengthError, i⟩ := by
  cases h : unhexExact 64 a with
  | none => simp [encB32, acceptable, h]
  | some b => simp [encB32, acceptable, h, (unhexExact_eq_some_iff.mp h).2]

theorem encAddrs_eq (es : List (List Byte)) : encAddrs i es =
    if es.all (acceptable .address) then .ok (es.flatMap addressWord) else .error ⟨.invalidAddressError, i⟩ := by
  induction es with
  | nil => rfl
  | cons e es ih =>
    rw [encAddrs, encAddr_eq, ih, List.all_cons]
    cases acceptable .address e with
    | false => rfl
    | true => cases es.all (acceptable .address) <;> rfl

end

/-! ### One argument (R140, R157, R170, R173 to R179) -/

/-- The naturals ENC writes as words for an argument beside a static value, which are its tail's offset and the length or
count, are below 2^256 (R141, R177, R178). -/
def wordsFit (t : ValueType) (a : List Byte) (off : Nat) : Prop :=
  match t with
  | .string => off < 2 ^ 256 ∧ a.length < 2 ^ 256
  | .addressArray => off < 2 ^ 256 ∧ (pieces a).length < 2 ^ 256
  | .uint256 => True
  | .bytes32 => True
  | .address => True
  | .bool => True
  | .unsupported _ => True

/-- The fault of an argument that is not acceptable for its type (R146, R179). Every string is acceptable, so its row is
never read. -/
def argFault : ValueType → FaultKind
  | .uint256 => .overflowError
  | .bool => .operandFault
  | .address => .invalidAddressError
  | .bytes32 => .invalidLengthError
  | .string => .operandFault
  | .addressArray => .invalidAddressError
  | .unsupported _ => .unsupportedTypeError

/-- What an acceptable argument contributes (R140, R157): the running offset moves by its tail segment (R172). -/
def segmentOf (t : ValueType) (a : List Byte) (off : Nat) : Segment :=
  ⟨headWord t a off, tailSegment t a, (tailSegment t a).length⟩

section
variable {t : ValueType} {a : List Byte} {i off : Nat}

theorem faultCode_argFault (h : acceptable t a = false) : faultCode (argFault t) = operandFaultCode t := by
  cases t with
  | string => cases h
  | _ => rfl

theorem length_addressWord (h : acceptable .address a = true) : (addressWord a).length = 32 := by
  obtain ⟨b, hb, hlen⟩ := unhex_of_unhexExact_isSome (n := 20) h
  simp [addressWord, hb, hlen]

theorem length_flatMap_addressWord {es : List (List Byte)} (h : es.all (acceptable .address) = true) :
    (es.flatMap addressWord).length = 32 * es.length := by
  have hwords : ∀ e ∈ es, (addressWord e).length = 32 := fun e he => length_addressWord (List.all_eq_true.mp h e he)
  rw [List.length_flatMap, List.map_congr_left hwords]
  simp [Nat.mul_comm]

/-- An address word, of any text, is not empty. -/
theorem length_le_flatMap_addressWord (es : List (List Byte)) : es.length ≤ (es.flatMap addressWord).length := by
  induction es with
  | nil => rfl
  | cons e es ih => simp [addressWord]; omega

theorem length_headWord (off : Nat) (h : acceptable t a = true) : (headWord t a off).length = 32 := by
  cases t with
  | uint256 | bool | string | addressArray => exact length_wordBytes _
  | bytes32 =>
    obtain ⟨b, hb, hlen⟩ := unhex_of_unhexExact_isSome (n := 32) h
    simp [headWord, hb, hlen]
  | address => exact length_addressWord h
  | unsupported _ => cases h

theorem length_tailSegment_string : (tailSegment .string a).length = 32 + ceil32 a.length := by
  have hpad := le_ceil32 a.length
  simp [tailSegment]
  omega

theorem length_tailSegment_addressArray (h : acceptable .addressArray a = true) :
    (tailSegment .addressArray a).length = 32 + 32 * (pieces a).length := by
  rw [tailSegment, List.length_append, length_wordBytes, length_flatMap_addressWord h]

/-- With the words in range an argument contributes its segment when it is acceptable, and else raises its type's fault
(R146). -/
theorem encArg_eq (h : wordsFit t a off) : encArg t a i off =
    if acceptable t a then .ok (segmentOf t a off) else .error ⟨argFault t, i⟩ := by
  cases t with
  | uint256 =>
    simp only [encArg, word, acceptable, decide_eq_true_eq]
    split <;> rfl
  | bool => rw [encArg, encBool_eq]; split <;> rfl
  | address => rw [encArg, encAddr_eq]; split <;> rfl
  | bytes32 => rw [encArg, encB32_eq]; split <;> rfl
  | string =>
    obtain ⟨hoff, hlen⟩ := h
    rw [encArg, encString, word_of_lt hoff, word_of_lt hlen, segmentOf, length_tailSegment_string]
    rfl
  | addressArray =>
    obtain ⟨hoff, hcount⟩ := h
    have hacc : acceptable .addressArray a = (pieces a).all (acceptable .address) := rfl
    rw [encArg, encArray, word_of_lt hoff, word_of_lt hcount, encAddrs_eq, hacc]
    cases hall : (pieces a).all (acceptable .address) with
    | false => rfl
    | true => rw [segmentOf, length_tailSegment_addressArray hall]; rfl
  | unsupported _ => rfl

theorem wordsFit_of_encString_ok {seg : Segment} (h : encString a i off = .ok seg) : wordsFit .string a off := by
  unfold encString at h
  split at h
  · cases h
  · rename_i hoff
    split at h
    · cases h
    · rename_i hlen; exact ⟨(word_ok_iff.mp hoff).1, (word_ok_iff.mp hlen).1⟩

theorem wordsFit_of_encArray_ok {seg : Segment} (h : encArray a i off = .ok seg) : wordsFit .addressArray a off := by
  unfold encArray at h
  dsimp only at h
  split at h
  · cases h
  · rename_i hoff
    split at h
    · cases h
    · rename_i hcount; exact ⟨(word_ok_iff.mp hoff).1, (word_ok_iff.mp hcount).1⟩

/-- An argument encodes exactly when it is acceptable and its words are in range; then it contributes its segment. -/
theorem encArg_ok_iff {seg : Segment} : encArg t a i off = .ok seg ↔
    acceptable t a = true ∧ wordsFit t a off ∧ seg = segmentOf t a off := by
  constructor
  · intro h
    have hfit : wordsFit t a off := by
      cases t with
      | string => exact wordsFit_of_encString_ok h
      | addressArray => exact wordsFit_of_encArray_ok h
      | _ => trivial
    rw [encArg_eq hfit] at h
    split at h
    · rename_i hacc; cases h; exact ⟨hacc, hfit, rfl⟩
    · cases h
  · rintro ⟨hacc, hfit, rfl⟩
    rw [encArg_eq hfit, if_pos hacc]

/-- A tail segment that ends below 2^256 begins there and is longer than its length or count. -/
theorem wordsFit_of_lt (h : off + (tailSegment t a).length < 2 ^ 256) : wordsFit t a off := by
  cases t with
  | string =>
    have hpad := le_ceil32 a.length
    rw [length_tailSegment_string] at h
    exact ⟨by omega, by omega⟩
  | addressArray =>
    rw [tailSegment, List.length_append, length_wordBytes] at h
    have hcount := length_le_flatMap_addressWord (pieces a)
    exact ⟨by omega, by omega⟩
  | _ => trivial

end

end Sys2Proof.Machine

/-! SUPPORT. What ENC gives for all arguments, and its faults (R156, R170 to R181). -/

namespace Sys2Proof.Machine

/-! ### Typed arguments in order (R156, R170, R172) -/

/-- A declared tag and its staged argument. -/
abbrev TypedArg := Byte × List Byte

/-- The type a declared tag stands for (R140). -/
def TypedArg.type (x : TypedArg) : ValueType := typeOfTag x.1

/-- The tail segment of a typed argument (R157). -/
def TypedArg.tail (x : TypedArg) : List Byte := tailSegment x.type x.2

/-- The tail of R156: the arguments' tail segments, in order. -/
def tailOf (l : List TypedArg) : List Byte := l.flatMap TypedArg.tail

/-- The head of R156 for arguments whose tail segments begin at the running offset `off` (R172). -/
def headFrom (off : Nat) : List TypedArg → List Byte
  | [] => []
  | x :: l => headWord x.type x.2 off ++ headFrom (off + x.tail.length) l

/-- Every argument is acceptable for its type (R146). -/
def AllAcceptable (l : List TypedArg) : Prop := ∀ x ∈ l, acceptable x.type x.2 = true

/-- Every argument is acceptable and its words are in range, with tail segments from the running offset `off` on. -/
def Encodable (off : Nat) : List TypedArg → Prop
  | [] => True
  | x :: l => acceptable x.type x.2 = true ∧ wordsFit x.type x.2 off ∧ Encodable (off + x.tail.length) l

section
variable {off : Nat} {x : TypedArg} {l l' : List TypedArg}

@[simp] theorem tailOf_nil : tailOf [] = [] := rfl

@[simp] theorem tailOf_cons : tailOf (x :: l) = x.tail ++ tailOf l := rfl

theorem tailOf_append : tailOf (l ++ l') = tailOf l ++ tailOf l' := List.flatMap_append

theorem allAcceptable_cons : AllAcceptable (x :: l) ↔ acceptable x.type x.2 = true ∧ AllAcceptable l :=
  List.forall_mem_cons

theorem Encodable.allAcceptable (h : Encodable off l) : AllAcceptable l := by
  induction l generalizing off with
  | nil => simp [AllAcceptable]
  | cons x l ih =>
    obtain ⟨hx, _, hl⟩ := h
    exact allAcceptable_cons.mpr ⟨hx, ih hl⟩

/-- Acceptable arguments with a tail that ends below 2^256 have all their words in range. -/
theorem AllAcceptable.encodable (h : AllAcceptable l) (hlt : off + (tailOf l).length < 2 ^ 256) : Encodable off l := by
  induction l generalizing off with
  | nil => trivial
  | cons x l ih =>
    obtain ⟨hx, hl⟩ := allAcceptable_cons.mp h
    rw [tailOf_cons, List.length_append] at hlt
    have htail : off + x.tail.length < 2 ^ 256 := by omega
    exact ⟨hx, wordsFit_of_lt htail, ih hl (by omega)⟩

theorem length_headFrom (off : Nat) (h : AllAcceptable l) : (headFrom off l).length = 32 * l.length := by
  induction l generalizing off with
  | nil => rfl
  | cons x l ih =>
    obtain ⟨hx, hl⟩ := allAcceptable_cons.mp h
    rw [headFrom, List.length_append, length_headWord off hx, ih _ hl, List.length_cons]
    omega

/-- The running offset at an argument is the one at the start and the tail segments before it. -/
theorem headFrom_eq_flatMap (off : Nat) (l : List TypedArg) : headFrom off l =
    l.zipIdx.flatMap fun y => headWord y.1.type y.1.2 (off + (tailOf (l.take y.2)).length) := by
  induction l generalizing off with
  | nil => rfl
  | cons x l ih =>
    rw [headFrom, ih, List.zipIdx_cons', List.flatMap_cons, List.flatMap_map]
    simp [Nat.add_assoc]

end

/-- The loop of `ENC` completes exactly when every argument is encodable; it gives head and tail (R170, R180). -/
theorem encArgs_ok_iff {i off : Nat} {ts : List Byte} {as : List (List Byte)} {r : List Byte × List Byte} :
    encArgs i off ts as = .ok r ↔
      Encodable off (ts.zip as) ∧ r = (headFrom off (ts.zip as), tailOf (ts.zip as)) := by
  induction ts generalizing i off as r with
  | nil => simp [encArgs, Encodable, headFrom, eq_comm]
  | cons t ts ih =>
    cases as with
    | nil => simp [encArgs, Encodable, headFrom, eq_comm]
    | cons a as =>
      simp only [encArgs_cons_ok_iff, encArg_ok_iff, ih]
      constructor
      · rintro ⟨_, _, ⟨hacc, hfit, rfl⟩, ⟨hrest, rfl⟩, rfl⟩
        exact ⟨⟨hacc, hfit, hrest⟩, rfl⟩
      · rintro ⟨⟨hacc, hfit, hrest⟩, rfl⟩
        exact ⟨_, _, ⟨hacc, hfit, rfl⟩, ⟨hrest, rfl⟩, rfl⟩

/-- One round of `ENC`'s loop when the argument's tail segment ends below 2^256. -/
theorem encArgs_cons_eq {i off : Nat} {t : Byte} {ts a : List Byte} {as : List (List Byte)}
    (hlt : off + (TypedArg.tail (t, a)).length < 2 ^ 256) : encArgs i off (t :: ts) (a :: as) =
      if acceptable (typeOfTag t) a then (encArgs (i + 1) (off + (TypedArg.tail (t, a)).length) ts as).map
        fun r => (headWord (typeOfTag t) a off ++ r.1, TypedArg.tail (t, a) ++ r.2)
      else .error ⟨argFault (typeOfTag t), i⟩ := by
  have hfit : wordsFit (typeOfTag t) a off := wordsFit_of_lt hlt
  rw [encArgs, encArg_eq hfit]
  cases acceptable (typeOfTag t) a with
  | false => rfl
  | true =>
    have hadvance : (segmentOf (typeOfTag t) a off).advance = (TypedArg.tail (t, a)).length := rfl
    simp only [if_true, hadvance]
    cases encArgs (i + 1) (off + (TypedArg.tail (t, a)).length) ts as <;> rfl

/-- The first argument that is not acceptable raises its type's fault at its index (R181, part 3). -/
theorem encArgs_error_of_first_bad {n i off : Nat} {ts : List Byte} {as : List (List Byte)}
    (hn : n < ts.length) (hn' : n < as.length) (hlt : off + (tailOf (ts.zip as)).length < 2 ^ 256)
    (hgood : ∀ m (hm : m < ts.length) (hm' : m < as.length), m < n → acceptable (typeOfTag ts[m]) as[m] = true)
    (hbad : acceptable (typeOfTag ts[n]) as[n] = false) :
    encArgs i off ts as = .error ⟨argFault (typeOfTag ts[n]), i + n⟩ := by
  induction ts generalizing i off as n with
  | nil => cases hn
  | cons t ts ih =>
    cases as with
    | nil => cases hn'
    | cons a as =>
      rw [List.zip_cons_cons, tailOf_cons, List.length_append] at hlt
      rw [encArgs_cons_eq (by omega)]
      cases n with
      | zero => exact if_neg (ne_true_of_eq_false hbad)
      | succ n =>
        have hfirst : acceptable (typeOfTag t) a = true := hgood 0 (by simp) (by simp) (by simp)
        have hrest := ih (i := i + 1) (off := off + (TypedArg.tail (t, a)).length)
          (by simpa using hn) (by simpa using hn') (by omega)
          (fun m hm hm' hmn => hgood (m + 1) (by simpa using hm) (by simpa using hm') (by omega)) hbad
        rw [if_pos hfirst, hrest, Except.map, Nat.add_right_comm]
        rfl

/-! ### The payload (R156, R181) -/

section
variable {s : State}

/-- The declared tags with their staged arguments. -/
def State.typedArgs (s : State) : List TypedArg := s.ityp.zip s.argv

theorem length_typedArgs (harity : s.argv.length = s.ityp.length) : s.typedArgs.length = s.ityp.length := by
  simp [State.typedArgs, harity]

theorem flatten_tailSegments (s : State) : (tailSegments s).flatten = tailOf s.typedArgs := by
  rw [tailSegments, tailOf, List.flatMap_def]; rfl

theorem offsetOf_eq (s : State) (i : Nat) :
    offsetOf s i = 32 * s.ityp.length + (tailOf (s.typedArgs.take i)).length := by
  rw [offsetOf, tailSegments, tailOf, List.flatMap_def, List.map_take]; rfl

theorem callPayload_eq (s : State) : callPayload s =
    s.selr.toList ++ headFrom (32 * s.ityp.length) s.typedArgs ++ tailOf s.typedArgs := by
  rw [headFrom_eq_flatMap, ← flatten_tailSegments]
  simp only [← offsetOf_eq]
  rfl

theorem encPayload_ok_iff {p : List Byte} : encPayload s = .ok p ↔ s.selv = true ∧ s.argv.length = s.ityp.length
    ∧ Encodable (32 * s.ityp.length) s.typedArgs ∧ p = callPayload s := by
  constructor
  · intro h
    unfold encPayload at h
    split at h
    · cases h
    · rename_i hsel
      split at h
      · cases h
      · rename_i harity
        split at h
        · cases h
        · rename_i hloop
          obtain ⟨henc, hr⟩ := encArgs_ok_iff.mp hloop
          cases hr
          cases h
          exact ⟨by simpa using hsel, not_ne_iff.mp harity, henc, (callPayload_eq s).symm⟩
  · rintro ⟨hsel, harity, henc, rfl⟩
    have hloop := encArgs_ok_iff (i := 0).mpr ⟨henc, rfl⟩
    simp [encPayload, hsel, harity, hloop, callPayload_eq, State.typedArgs]

theorem encPayload_of_encArgs_error {e : Raise} (hsel : s.selv = true) (harity : s.argv.length = s.ityp.length)
    (h : encArgs 0 (32 * s.ityp.length) s.ityp s.argv = .error e) : encPayload s = .error e := by
  simp [encPayload, hsel, harity, h]

theorem argumentsAcceptable_iff :
    argumentsAcceptable s = true ↔ s.argv.length = s.ityp.length ∧ AllAcceptable s.typedArgs := by
  rw [argumentsAcceptable, decide_eq_true_iff, List.all_eq_true]
  rfl

/-- With a selector and acceptable arguments nothing but the payload's length can stop ENC (R181). -/
theorem encPayload_of_acceptable (hsel : s.selv = true) (hacc : argumentsAcceptable s = true)
    (hlen : (callPayload s).length < 2 ^ 256) : encPayload s = .ok (callPayload s) := by
  obtain ⟨harity, hall⟩ := argumentsAcceptable_iff.mp hacc
  rw [callPayload_eq, List.length_append, List.length_append, length_headFrom _ hall,
    length_typedArgs harity] at hlen
  exact encPayload_ok_iff.mpr ⟨hsel, harity, hall.encodable (by omega), rfl⟩

/-- What ENC (with `render` the identity) or ENC.X does with a payload that fits the buffer or not (R180, R224). -/
theorem exec_of_encPayload {i : Instr} {render : List Byte → List Byte} {p : List Byte} (hs : s.err = false)
    (hi : effectOf i = encInto render) (hp : encPayload s = .ok p) :
    (s.params.bufFits (render p).length = true → exec i s = .next { s with obuf := render p, cp := s.cp + 1 })
    ∧ (s.params.bufFits (render p).length = false → exec i s = .next { s with
        err := true, ecode := 9, epos := 0, ecmd := encode i, ecp := s.cp, cp := s.cp + 1 }) := by
  refine ⟨fun hfits => ?_, fun hfull => ?_⟩
  · exact exec_of_effect_ok hs (hi ▸ encInto_ok_iff.mpr ⟨p, hp, hfits, rfl⟩)
  · exact exec_of_effect_raise0 hs (hi ▸ encInto_error_iff.mpr (.inr ⟨p, hp, hfull, rfl⟩))

end

/-- Settles O51: the payload of acceptable arguments, as bytes and as text, when it fits and when it does not. -/
theorem encWritesTheCallPayload : Obligations.EncWritesTheCallPayload := by
  refine ⟨by decide, by decide, fun s hs hsel hacc hlen => ?_⟩
  have hpayload := encPayload_of_acceptable hsel hacc hlen
  obtain ⟨hbytes, hbytesFull⟩ := exec_of_encPayload (i := .enc) hs rfl hpayload
  obtain ⟨htext, htextFull⟩ := exec_of_encPayload (i := .encX) hs rfl hpayload
  exact ⟨hbytes, htext, hbytesFull, htextFull⟩

/-- Settles O54: the loop stops at the first bad argument, before a payload is rendered, in ENC and ENC.X alike. -/
theorem encReportsTheFirstBadArgument : Obligations.EncReportsTheFirstBadArgument := by
  intro s i n hi hs hsel harity hlt hn hn' hgood hbad
  rw [flatten_tailSegments] at hlt
  have hloop := encArgs_error_of_first_bad (i := 0) hn hn' hlt hgood hbad
  have hpayload := encPayload_of_encArgs_error hsel harity hloop
  have heffect : effectOf i s = .error ⟨argFault (typeOfTag s.ityp[n]), 0 + n⟩ := by
    rcases hi with rfl | rfl <;> exact encInto_error_iff.mpr (.inl hpayload)
  rw [exec_unlatched i hs, takeCommand_error hs heffect, State.enterFault, faultCode_argFault hbad, Nat.zero_add]
  rfl

end Sys2Proof.Machine

/-! SUPPORT. DEC reads back what ENC wrote (R148). -/

namespace Sys2Proof.Machine

/-! ### Reading a payload in parts (R12, R191) -/

/-- A read of two parts is a read of each. -/
theorem memRead_append {p x y : List Byte} {o : Nat} (h : memRead p o (x ++ y).length = some (x ++ y)) :
    memRead p o x.length = some x ∧ memRead p (o + x.length) y.length = some y := by
  simp only [memRead_eq_some_iff, List.length_append] at h ⊢
  obtain ⟨hle, hread⟩ := h
  have hx : slice (slice p o (x.length + y.length)) 0 x.length = slice p o x.length := slice_slice (by omega)
  have hy : slice (slice p o (x.length + y.length)) x.length y.length = slice p (o + x.length) y.length :=
    slice_slice (by omega)
  rw [hread] at hx hy
  refine ⟨⟨by omega, ?_⟩, by omega, ?_⟩
  · simpa [slice] using hx.symm
  · simpa [slice] using hy.symm

/-- A read of the middle part of a concatenation. -/
theorem memRead_middle (x y z : List Byte) : memRead (x ++ (y ++ z)) x.length y.length = some y :=
  memRead_eq_some_iff.mpr ⟨by simp, slice_middle x y z⟩

/-- A word read from the payload is its natural (R141, R190). -/
theorem wordAt_of_memRead {p : List Byte} {o v : Nat} (hv : v < 2 ^ 256) (h : memRead p o 32 = some (wordBytes v)) :
    o + 32 ≤ p.length ∧ wordAt p o = v := by
  obtain ⟨hinside, hread⟩ := memRead_eq_some_iff.mp h
  exact ⟨hinside, by rw [wordAt, hread, be_wordBytes hv]⟩

/-! ### Canonical texts (R147, R148) -/

theorem canonHex_of_unhex {v b : List Byte} (h : unhex v = some b) : canonHex v = hex0x b := by
  rw [canonHex, h]

/-- The 20 bytes of an address word are rendered as the canonical text of the address. -/
theorem hex0x_drop_addressWord {a : List Byte} (h : acceptable .address a = true) :
    hex0x ((addressWord a).drop 12) = canonHex a := by
  obtain ⟨b, hb, _⟩ := unhex_of_unhexExact_isSome (n := 20) h
  rw [canonHex_of_unhex hb, addressWord, hb, List.drop_left' (length_zeros 12)]
  rfl

/-- The first of several address words, and the others (R199). -/
theorem addressTexts_append {w : List Byte} (hw : w.length = 32) (body : List Byte) (n : Nat) :
    addressTexts (w ++ body) (n + 1) = addressText w :: addressTexts body n := by
  have hfirst : slice (w ++ body) (32 * 0) 32 = w := by rw [← hw]; exact slice_middle [] w body
  have hrest : ∀ k, slice (w ++ body) (32 * (k + 1)) 32 = slice body (32 * k) 32 := fun k => by
    rw [← slice_append_right w body (32 * k), hw, Nat.mul_succ, Nat.add_comm]
  simp only [addressTexts, List.range_succ_eq_map, List.map_cons, List.map_map, Function.comp_def, hfirst, hrest]

/-- The address words of a list are rendered as the canonical texts of its addresses. -/
theorem addressTexts_flatMap_addressWord {es : List (List Byte)} (h : es.all (acceptable .address) = true) :
    addressTexts (es.flatMap addressWord) es.length = es.map canonHex := by
  induction es with
  | nil => rfl
  | cons e es ih =>
    rw [List.all_cons, Bool.and_eq_true] at h
    obtain ⟨he, hes⟩ := h
    have hw := length_addressWord he
    rw [List.flatMap_cons, List.length_cons, addressTexts_append hw, ih hes, addressText_eq hw,
      hex0x_drop_addressWord he]
    rfl

/-! ### One argument, read back -/

section
variable {p a : List Byte} {j off : Nat} {t : ValueType}

/-- An output whose head word and tail segment are an encoded argument's has its ranges inside the payload, and its
result is the argument's canonical form (R148). -/
theorem resultOf_of_segment (hacc : acceptable t a = true) (hfit : wordsFit t a off)
    (hhead : memRead p (32 * j) 32 = some (headWord t a off))
    (htail : memRead p off (tailSegment t a).length = some (tailSegment t a)) :
    rangesInside p j t = true ∧ resultOf p j t = canon t a := by
  obtain ⟨hinside, hword⟩ := memRead_eq_some_iff.mp hhead
  cases t with
  | uint256 => exact ⟨decide_eq_true hinside, hword⟩
  | bytes32 =>
    obtain ⟨b, hb, _⟩ := unhex_of_unhexExact_isSome (n := 32) hacc
    refine ⟨decide_eq_true hinside, ?_⟩
    rw [resultOf, hword, headWord, hb, canon, canonHex_of_unhex hb]
    rfl
  | address =>
    refine ⟨decide_eq_true hinside, ?_⟩
    rw [resultOf, hword]
    exact hex0x_drop_addressWord hacc
  | bool =>
    refine ⟨decide_eq_true hinside, ?_⟩
    rw [resultOf, hword, headWord]
    rcases of_decide_eq_true hacc with rfl | rfl <;> decide
  | string =>
    obtain ⟨hoff, hlen⟩ := hfit
    obtain ⟨_, hoffAt⟩ := wordAt_of_memRead hoff hhead
    obtain ⟨htail, _⟩ := memRead_append htail
    obtain ⟨hlenRead, hbytes⟩ := memRead_append htail
    rw [length_wordBytes] at hlenRead hbytes
    obtain ⟨hlenInside, hlenAt⟩ := wordAt_of_memRead hlen hlenRead
    obtain ⟨hbytesInside, hbytes⟩ := memRead_eq_some_iff.mp hbytes
    refine ⟨decide_eq_true ?_, ?_⟩
    · rw [hoffAt, hlenAt]; exact ⟨hinside, hlenInside, hbytesInside⟩
    · change slice p (wordAt p (32 * j) + 32) (wordAt p (wordAt p (32 * j))) = a
      rw [hoffAt, hlenAt, hbytes]
  | addressArray =>
    obtain ⟨hoff, hcount⟩ := hfit
    obtain ⟨_, hoffAt⟩ := wordAt_of_memRead hoff hhead
    obtain ⟨hcountRead, hbytes⟩ := memRead_append htail
    rw [length_wordBytes] at hcountRead hbytes
    obtain ⟨hcountInside, hcountAt⟩ := wordAt_of_memRead hcount hcountRead
    rw [length_flatMap_addressWord hacc] at hbytes
    obtain ⟨hbytesInside, hbytes⟩ := memRead_eq_some_iff.mp hbytes
    refine ⟨decide_eq_true ?_, ?_⟩
    · rw [hoffAt, hcountAt]; exact ⟨hinside, hcountInside, hbytesInside⟩
    · have hresult : resultOf p j .addressArray = joinComma ((List.range (wordAt p (wordAt p (32 * j)))).map
          fun k => hex0x (slice p (wordAt p (32 * j) + 32 + 32 * k + 12) 20)) := rfl
      rw [hresult, hoffAt, hcountAt, ← addressTexts_slice, hbytes, addressTexts_flatMap_addressWord hacc]
      rfl
  | unsupported _ => cases hacc

theorem supported_of_acceptable (h : acceptable t a = true) : supported t = true := by
  cases t with
  | unsupported _ => cases h
  | _ => rfl

end

/-! ### All arguments, read back -/

/-- What follows the selector in the call payload: `head ‖ tail` (R156). -/
def argsPayload (l : List TypedArg) : List Byte := headFrom (32 * l.length) l ++ tailOf l

section
variable {l l₁ l₂ : List TypedArg} {x : TypedArg}

theorem headFrom_append (off : Nat) (l₁ l₂ : List TypedArg) :
    headFrom off (l₁ ++ l₂) = headFrom off l₁ ++ headFrom (off + (tailOf l₁).length) l₂ := by
  induction l₁ generalizing off with
  | nil => rfl
  | cons x l₁ ih => simp [headFrom, ih, Nat.add_assoc]

theorem encodable_append {off : Nat} :
    Encodable off (l₁ ++ l₂) ↔ Encodable off l₁ ∧ Encodable (off + (tailOf l₁).length) l₂ := by
  induction l₁ generalizing off with
  | nil => simp [Encodable]
  | cons x l₁ ih => simp [Encodable, ih, Nat.add_assoc, and_assoc]

/-- The argument after `l₁` has its head word at `32 * l₁.length` and its tail segment at its offset (R156, R172). -/
theorem memRead_argsPayload (hl : l = l₁ ++ x :: l₂) (hacc : AllAcceptable l) :
    memRead (argsPayload l) (32 * l₁.length) 32
      = some (headWord x.type x.2 (32 * l.length + (tailOf l₁).length))
    ∧ memRead (argsPayload l) (32 * l.length + (tailOf l₁).length) x.tail.length = some x.tail := by
  have hacc₁ : AllAcceptable l₁ := fun y hy => hacc y (by simp [hl, hy])
  have hx : acceptable x.type x.2 = true := hacc x (by simp [hl])
  have hhead : headFrom (32 * l.length) l = headFrom (32 * l.length) l₁
      ++ headFrom (32 * l.length + (tailOf l₁).length) (x :: l₂) := by rw [hl, headFrom_append]
  have htail : tailOf l = tailOf l₁ ++ (x.tail ++ tailOf l₂) := by rw [hl, tailOf_append, tailOf_cons]
  constructor
  · have hread := memRead_middle (headFrom (32 * l.length) l₁)
      (headWord x.type x.2 (32 * l.length + (tailOf l₁).length))
      (headFrom (32 * l.length + (tailOf l₁).length + x.tail.length) l₂ ++ tailOf l)
    rw [length_headFrom _ hacc₁, length_headWord _ hx] at hread
    rw [argsPayload, hhead, headFrom, ← hread]
    simp only [List.append_assoc]
  · have hread := memRead_middle (headFrom (32 * l.length) l ++ tailOf l₁) x.tail (tailOf l₂)
    rw [List.length_append, length_headFrom _ hacc] at hread
    rw [argsPayload, htail, ← hread]
    simp only [List.append_assoc]

/-- Every output of an encoded payload has its ranges inside it, and its result is the canonical argument (R148). -/
theorem resultOf_argsPayload (h : Encodable (32 * l.length) l) (hl : l = l₁ ++ x :: l₂) :
    rangesInside (argsPayload l) l₁.length x.type = true
    ∧ resultOf (argsPayload l) l₁.length x.type = canon x.type x.2 := by
  obtain ⟨hhead, htail⟩ := memRead_argsPayload hl h.allAcceptable
  generalize hoff : 32 * l.length = off at *
  rw [hl, encodable_append] at h
  obtain ⟨_, hx, hfit, _⟩ := h
  exact resultOf_of_segment hx hfit hhead htail

/-- DEC's loop reads the canonical arguments back (R148). -/
theorem decOutputs_argsPayload {par : Params} (h : Encodable (32 * l.length) l)
    (hfits : ∀ x ∈ l, par.bufFits (canon x.type x.2).length = true) :
    decOutputs par (argsPayload l) 0 (l.map Prod.fst) = .ok (l.map fun x => canon x.type x.2) := by
  have hresult : ∀ j (hj : j < l.length), rangesInside (argsPayload l) j (l[j]).type = true
      ∧ resultOf (argsPayload l) j (l[j]).type = canon (l[j]).type (l[j]).2 := fun j hj => by
    have hsplit := resultOf_argsPayload (l₁ := l.take j) (x := l[j]) (l₂ := l.drop (j + 1)) h (by simp)
    rwa [List.length_take_of_le (by omega)] at hsplit
  have hreadable : ∀ j (hj : j < (l.map Prod.fst).length),
      outputReadable par (argsPayload l) (0 + j) (typeOfTag (l.map Prod.fst)[j]) = true := fun j hj => by
    rw [List.length_map] at hj
    obtain ⟨hinside, hcanon⟩ := hresult j hj
    have hmem := List.getElem_mem hj
    rw [Nat.zero_add, List.getElem_map]
    change outputReadable par (argsPayload l) j (l[j]).type = true
    rw [outputReadable, hinside, hcanon, hfits _ hmem, supported_of_acceptable (h.allAcceptable _ hmem)]
    rfl
  rw [decOutputs_of_readable hreadable]
  refine congrArg Except.ok (List.ext_getElem (by simp) fun j hj hj' => ?_)
  rw [List.length_map] at hj'
  simpa [TypedArg.type] using (hresult j hj').2

/-- DEC on an encoded payload stages the canonical arguments; with no argument the payload is empty (R148, R192). -/
theorem decPayload_argsPayload {s : State} (h : Encodable (32 * l.length) l) (hotyp : s.otyp = l.map Prod.fst)
    (hfits : ∀ x ∈ l, s.params.bufFits (canon x.type x.2).length = true) :
    decPayload (argsPayload l) s = .ok { s with resv := l.map fun x => canon x.type x.2 } := by
  rw [decPayload_ok_iff, hotyp]
  cases l with
  | nil => exact .inl ⟨rfl, rfl⟩
  | cons x l =>
    refine .inr ⟨fun hempty => ?_, _, decOutputs_argsPayload h hfits, rfl⟩
    have hlen := length_headFrom (32 * (x :: l).length) h.allAcceptable
    rw [List.append_eq_nil_iff.mp hempty |>.1] at hlen
    simp at hlen

end

section
variable {s : State}

theorem typedArgs_map_fst (harity : s.argv.length = s.ityp.length) : s.typedArgs.map Prod.fst = s.ityp :=
  List.map_fst_zip (by omega)

/-- The payload without its selector, which is what `XFER 4` moves (R156, R214). -/
theorem drop_callPayload (harity : s.argv.length = s.ityp.length) :
    (callPayload s).drop 4 = argsPayload s.typedArgs := by
  rw [callPayload_eq, argsPayload, length_typedArgs harity, List.append_assoc, List.drop_left' (by simp)]

theorem forall_mem_typedArgs {P : TypedArg → Prop}
    (h : ∀ m (hi : m < s.ityp.length) (ha : m < s.argv.length), P (s.ityp[m], s.argv[m])) : ∀ x ∈ s.typedArgs, P x := by
  intro x hx
  obtain ⟨m, hm, rfl⟩ := List.mem_iff_getElem.mp hx
  simpa [State.typedArgs] using h m (List.lt_length_left_of_zip hm) (List.lt_length_right_of_zip hm)

/-- An ENC that completes: its arguments were encodable, its payload is in the output buffer (R170). -/
theorem encodable_of_exec_enc {t : State} (hs : s.err = false) (h : exec .enc s = .next t) (ht : t.err = false) :
    s.argv.length = s.ityp.length ∧ Encodable (32 * s.ityp.length) s.typedArgs
    ∧ t = { s with obuf := callPayload s, cp := s.cp + 1 } := by
  rcases exec_unlatched_cases hs h with ⟨u, hu, _, rfl⟩ | ⟨e, _, rfl⟩
  · obtain ⟨p, hp, _, rfl⟩ := encInto_ok_iff.mp hu
    obtain ⟨_, harity, hencodable, rfl⟩ := encPayload_ok_iff.mp hp
    exact ⟨harity, hencodable, rfl⟩
  · cases ht

end

/-- Settles O60: ENC leaves the payload of encodable arguments, and DEC reads what follows its selector. -/
theorem decodeOfEncodeIsCanonical : Obligations.DecodeOfEncodeIsCanonical := by
  intro s t hs hotyp henc ht hfits
  obtain ⟨harity, hencodable, rfl⟩ := encodable_of_exec_enc hs henc ht
  rw [← length_typedArgs harity] at hencodable
  have hlong : 4 ≤ (callPayload s).length := by simp [callPayload_eq]
  have hxfer : exec (.xfer 4) { s with obuf := callPayload s, cp := s.cp + 1 } = .next { s with
      ibuf := argsPayload s.typedArgs, obuf := callPayload s, cp := s.cp + 1 + 1 } := by
    rw [← drop_callPayload harity]
    exact exec_of_effect_ok (i := .xfer 4) (s := { s with obuf := callPayload s, cp := s.cp + 1 }) hs
      (xferEffect_ok_iff.mpr ⟨hlong, rfl⟩)
  have hdec := decPayload_argsPayload
    (s := { s with ibuf := argsPayload s.typedArgs, obuf := callPayload s, cp := s.cp + 1 + 1 }) hencodable
    (hotyp.trans (typedArgs_map_fst harity).symm) (forall_mem_typedArgs hfits)
  exact ⟨_, _, hxfer, exec_of_effect_ok (i := .dec) hs hdec, hs, rfl⟩

end Sys2Proof.Machine

/-! SUPPORT. The length of ENC's payload (R182) and the two checks before its loop (R171, R181). -/

namespace Sys2Proof.Machine

/-! ### The length of a tail (R157, R182) -/

section
variable {t : ValueType} {a : List Byte} {l : List TypedArg}

/-- A string is padded to whole words, and an address word is a whole word (R157). -/
theorem dvd_length_tailSegment (h : acceptable t a = true) : 32 ∣ (tailSegment t a).length := by
  cases t with
  | string =>
    rw [length_tailSegment_string]
    exact (dvd_refl 32).add (Nat.dvd_of_mod_eq_zero (ceil32_mod _))
  | addressArray =>
    rw [length_tailSegment_addressArray h]
    exact (dvd_refl 32).add (dvd_mul_right 32 _)
  | _ => exact dvd_zero 32

theorem tailSegment_of_isStatic (h : t.isStatic = true) : tailSegment t a = [] := by
  cases t with
  | string | addressArray => cases h
  | _ => rfl

theorem dvd_length_tailOf (h : AllAcceptable l) : 32 ∣ (tailOf l).length := by
  induction l with
  | nil => exact dvd_zero 32
  | cons x l ih =>
    obtain ⟨hx, hl⟩ := allAcceptable_cons.mp h
    rw [tailOf_cons, List.length_append]
    exact (dvd_length_tailSegment hx).add (ih hl)

theorem tailOf_of_isStatic (h : ∀ x ∈ l, x.type.isStatic = true) : tailOf l = [] :=
  List.flatMap_eq_nil_iff.mpr fun x hx => tailSegment_of_isStatic (h x hx)

end

/-- The selector, one head word for each declared input, and the tail (R182). -/
theorem length_callPayload {s : State} (harity : s.argv.length = s.ityp.length)
    (h : AllAcceptable s.typedArgs) :
    (callPayload s).length = 4 + 32 * s.ityp.length + (tailOf s.typedArgs).length := by
  rw [callPayload_eq, List.length_append, List.length_append, length_headFrom _ h, length_typedArgs harity,
    Vector.length_toList]

/-- Settles O52: ENC leaves the payload of acceptable arguments, and its tail is made of whole words. -/
theorem encPayloadLength : Obligations.EncPayloadLength := by
  intro s t hs henc ht
  obtain ⟨harity, hencodable, rfl⟩ := encodable_of_exec_enc hs henc ht
  have hacc := hencodable.allAcceptable
  have hlen := length_callPayload harity hacc
  rw [flatten_tailSegments]
  refine ⟨hlen, Nat.mod_eq_zero_of_dvd (dvd_length_tailOf hacc), fun hstatic => hlen.trans ?_⟩
  have htail : tailOf s.typedArgs = [] :=
    tailOf_of_isStatic fun x hx => hstatic x.1 (List.of_mem_zip hx).1
  rw [htail, List.length_nil, Nat.add_zero]

/-! ### The checks before the loop (R171, R181) -/

section
variable {s : State}

theorem encPayload_of_no_selector (hsel : s.selv = false) : encPayload s = .error (raise0 .sequenceFault) := by
  simp [encPayload, hsel]

/-- The counts are compared before the loop looks at an argument (R171). -/
theorem encPayload_of_wrong_count (hsel : s.selv = true) (hcount : s.argv.length ≠ s.ityp.length) :
    encPayload s = .error (raise0 .arityError) := by
  simp [encPayload, hsel, hcount]

/-- A fault before the payload is rendered is the same in ENC and ENC.X. -/
theorem exec_of_encPayload_raise0 {i : Instr} {k : FaultKind} (hi : i = .enc ∨ i = .encX) (hs : s.err = false)
    (h : encPayload s = .error (raise0 k)) : exec i s = .next { s with
      err := true, ecode := faultCode k, epos := 0, ecmd := encode i, ecp := s.cp, cp := s.cp + 1 } := by
  apply exec_of_effect_raise0 hs
  rcases hi with rfl | rfl <;> exact encInto_error_iff.mpr (.inl h)

end

/-- Settles O53: neither check reads an argument, and the selector's comes first. -/
theorem encChecksSelectorThenArity : Obligations.EncChecksSelectorThenArity :=
  fun _ _ hi hs =>
    ⟨fun hsel => exec_of_encPayload_raise0 hi hs (encPayload_of_no_selector hsel),
      fun hsel hcount => exec_of_encPayload_raise0 hi hs (encPayload_of_wrong_count hsel hcount)⟩

end Sys2Proof.Machine

/-! SUPPORT. What DEC raises for the first bad output (R191, R201, R202, R224), its two other entries (R192, R204), and
RGET (R200). -/

namespace Sys2Proof.Machine

/-! ### The raise of one output (R202) -/

/-- The raise of an output that does not decode: its ranges are checked first, then its type, then its length. -/
def outputRaise (p : List Byte) (j : Nat) (t : ValueType) : Raise :=
  if rangesInside p j t = false then ⟨.truncatedDataError, j⟩
  else if supported t = false then ⟨.unsupportedTypeError, j⟩
  else raise0 .capacityFault

section
variable {par : Params} {p : List Byte} {j : Nat} {t : ValueType}

theorem faultCode_outputRaise : faultCode (outputRaise p j t).kind =
    if rangesInside p j t = false then 6 else if supported t = false then 5 else 9 := by
  unfold outputRaise
  split
  · rfl
  · split <;> rfl

/-- `CapacityFault` carries no position (R220). -/
theorem eposOf_outputRaise : eposOf (outputRaise p j t).pos =
    if rangesInside p j t = false ∨ supported t = false then BitVec.ofNat 16 j else 0 := by
  rw [ite_or, outputRaise]
  split
  · rfl
  · split <;> rfl

/-- With its head word inside the payload, an output lacks only a range behind its offset, which a static type does not
have (R198, R199). -/
theorem decValue_of_ranges_outside (hhead : 32 * j + 32 ≤ p.length) (hr : rangesInside p j t = false) :
    decValue p (slice p (32 * j) 32) j t = .error ⟨.truncatedDataError, j⟩ := by
  cases t with
  | string | addressArray =>
    have hout := of_decide_eq_false hr
    exact map_eq_error_iff.mpr (rdCounted_error_iff.mpr ⟨by unfold wordAt at hout; omega, rfl⟩)
  | _ => exact absurd hhead (of_decide_eq_false hr)

theorem decValue_of_unsupported {w : List Byte} (h : supported t = false) :
    decValue p w j t = .error ⟨.unsupportedTypeError, j⟩ := by
  cases t with
  | unsupported tag => rfl
  | _ => cases h

/-- The cases are the checks of R202 in their order: head word, value (its ranges, then its type), capacity. -/
theorem decOutput_of_unreadable {tag : Byte} (h : outputReadable par p j (typeOfTag tag) = false) :
    decOutput par p j tag = .error (outputRaise p j (typeOfTag tag)) := by
  rw [outputRaise]
  by_cases hhead : 32 * j + 32 ≤ p.length
  · have hword : rd p (32 * j) 32 j = .ok (slice p (32 * j) 32) := rd_ok_iff.mpr ⟨hhead, rfl⟩
    split
    · rename_i hr
      simp [decOutput, hword, decValue_of_ranges_outside hhead hr]
    · rename_i hr
      split
      · rename_i ht
        simp [decOutput, hword, decValue_of_unsupported ht]
      · rename_i ht
        rw [Bool.not_eq_false] at hr ht
        have hfull : par.bufFits (resultOf p j (typeOfTag tag)).length = false := by
          simpa [outputReadable, hr, ht] using h
        simp [decOutput, hword, decValue_of_rangesInside hr ht, hfull]
  · have hword : rd p (32 * j) 32 j = .error ⟨.truncatedDataError, j⟩ := rd_error_iff.mpr ⟨by omega, rfl⟩
    have hr : rangesInside p j (typeOfTag tag) = false :=
      Bool.eq_false_iff.mpr fun hr => hhead (head_inside_of_rangesInside hr)
    simp [decOutput, hword, hr]

/-! ### The first bad output (R190) -/

/-- The loop stops at the first output that does not decode, with its raise. -/
theorem decOutputs_error_of_first_bad {k : Nat} {tags : List Byte} (hj : j < tags.length)
    (hgood : ∀ m (hm : m < tags.length), m < j → outputReadable par p (k + m) (typeOfTag tags[m]) = true)
    (hbad : outputReadable par p (k + j) (typeOfTag tags[j]) = false) :
    decOutputs par p k tags = .error (outputRaise p (k + j) (typeOfTag tags[j])) := by
  induction tags generalizing k j with
  | nil => cases hj
  | cons tag tags ih =>
    cases j with
    | zero =>
      have hfirst := decOutput_of_unreadable (tag := tag) hbad
      rw [Nat.add_zero] at hfirst
      simp [decOutputs, hfirst]
    | succ j =>
      have hfirst := decOutput_of_readable (tag := tag) (hgood 0 (by simp) (by simp))
      have hshift : ∀ m, k + 1 + m = k + (m + 1) := by omega
      have hrest := ih (k := k + 1) (j := j) (by simpa using hj)
        (fun m hm hmj => hshift m ▸ hgood (m + 1) (by simpa using hm) (by omega)) (hshift j ▸ hbad)
      rw [Nat.add_zero] at hfirst
      simp [decOutputs, hfirst, hrest, hshift]

end

/-- Settles O57: the loop raises the first bad output's fault, and DEC enters it. -/
theorem decReportsTheFirstBadOutput : Obligations.DecReportsTheFirstBadOutput := by
  intro s j hs hp hj hgood hbad
  have hloop := decOutputs_error_of_first_bad (k := 0) hj (by simpa using hgood) (by simpa using hbad)
  rw [Nat.zero_add] at hloop
  have heffect : effectOf .dec s = .error (outputRaise s.ibuf j (typeOfTag s.otyp[j])) :=
    decPayload_error_iff.mpr ⟨hp, hloop⟩
  rw [exec_unlatched .dec hs, takeCommand_error hs heffect, State.enterFault, faultCode_outputRaise,
    eposOf_outputRaise]
  rfl

/-! ### The empty payload and hex text (R192, R204) -/

section
variable {s : State}

/-- The payload is handed to the loop, which does not look at `IBUF` (R190, R204). -/
theorem decPayload_withIbuf (p b : List Byte) :
    decPayload p { s with ibuf := b } = (decPayload p s).map fun u => { u with ibuf := b } := by
  cases p with
  | nil => rfl
  | cons x p =>
    simp only [decPayload, List.isEmpty_cons]
    cases decOutputs s.params (x :: p) 0 s.otyp <;> rfl

theorem decXEffect_of_unhex {p : List Byte} (h : unhex s.ibuf = some p) : decXEffect s = decPayload p s := by
  simp [decXEffect, h]

end

/-- Settles O55: both texts denote the empty payload, which gives no result. -/
theorem emptyPayloadDecodesToNothing : Obligations.EmptyPayloadDecodesToNothing := by
  refine fun s hs => ⟨fun hempty => ?_, fun htext => ?_⟩
  · exact exec_of_effect_ok (i := .dec) hs (decPayload_ok_iff.mpr (.inl ⟨hempty, rfl⟩))
  · have hdenotes : unhex s.ibuf = some [] := by rcases htext with h | h <;> rw [h] <;> rfl
    exact exec_of_effect_ok (i := .decX) hs
      (decXEffect_ok_iff.mpr ⟨[], hdenotes, decPayload_ok_iff.mpr (.inl ⟨rfl, rfl⟩)⟩)

/-- Settles O58: DEC.X has the effect of DEC's loop on the payload its text denotes, so both complete or both raise the
same fault. -/
theorem decXReadsHexText : Obligations.DecXReadsHexText := by
  refine fun s hs => ⟨fun hbad => ?_, fun p hp => ?_⟩
  · exact exec_of_effect_raise0 (i := .decX) hs (decXEffect_error_iff.mpr (.inl ⟨hbad, rfl⟩))
  · have hdec : decEffect { s with ibuf := p } = (decPayload p s).map fun u => { u with ibuf := p } :=
      decPayload_withIbuf p p
    have hdecX := decXEffect_of_unhex hp
    cases hpayload : decPayload p s with
    | ok u =>
      rw [hpayload] at hdec hdecX
      exact ⟨_, _, exec_of_effect_ok (i := .dec) hs hdec, exec_of_effect_ok (i := .decX) hs hdecX, rfl, rfl, rfl, rfl,
        effectOf_ok_same (i := .decX) hdecX .ibuf (by decide)⟩
    | error e =>
      rw [hpayload] at hdec hdecX
      exact ⟨_, _, takeCommand_error hs hdec, takeCommand_error hs hdecX, rfl, rfl, rfl, rfl, rfl⟩

/-! ### RGET (R200) -/

theorem encode_rget (j : BitVec 16) : encode (.rget j) = 0x51000000 ||| j.setWidth 32 := packWord_eq_or 0x51 j

/-- Settles O59: result `j` is staged, or the command faults, and `ECMD` is its word. -/
theorem rgetCopiesAResult : Obligations.RgetCopiesAResult := by
  refine fun j s => ⟨encode_rget j, fun hs hstaged => ?_, fun hs hbeyond => ?_⟩
  · exact exec_of_effect_ok (i := .rget j) hs (rgetEffect_ok_iff.mpr ⟨_, List.getElem?_eq_getElem hstaged, rfl⟩)
  · rw [exec_of_effect_raise0 (i := .rget j) hs (rgetEffect_error_iff.mpr ⟨hbeyond, rfl⟩), encode_rget]; rfl

end Sys2Proof.Machine

/-! SUPPORT. Buffer and control commands: the error registers (R211, R229), the input buffer (R212 to R214). -/

namespace Sys2Proof.Machine

/-! ### NOP and CLRERR (R210, R211) -/

/-- `NOP` moves `CP` whether it is taken (R210) or skipped (R228). -/
theorem exec_nop (s : State) : exec .nop s = .next s.advance := by
  rw [exec_eq_takeCommand (by decide)]
  cases hs : s.err with
  | false => exact takeCommand_ok hs (nopEffect_eq s)
  | true => exact takeCommand_latched hs

/-- Settles O25: from `exec_nop`. -/
theorem nopChangesCpOnly : Obligations.NopChangesCpOnly := ⟨by decide, exec_nop⟩

/-- In range and unlatched, the error registers are clear already (R220). -/
theorem State.Inv.clearFault_eq {s : State} (hs : s.Inv) (herr : s.err = false) : s.clearFault = s := by
  obtain ⟨hecode, hepos, hecmd, hecp⟩ := hs.clear_unlatched herr
  cases s
  simp_all only [State.clearFault]

/-- Settles O20: a command that sets `ERR` entered a fault, and clearing undoes it. -/
theorem clrerrRestoresTheStateBeforeTheFault : Obligations.ClrerrRestoresTheStateBeforeTheFault := by
  refine ⟨exec_clrerr, fun i s t hs herr hexec ht => ?_⟩
  rcases exec_unlatched_cases herr hexec with ⟨u, _, hu, rfl⟩ | ⟨e, _, rfl⟩
  · simp [hu] at ht
  · rw [exec_clrerr, clearFault_enterFault, hs.clearFault_eq herr]
    simp [State.advance, BitVec.add_assoc]

/-! ### The input buffer (R212 to R214) -/

/-- Settles O26: the effect always completes. -/
theorem iclrEmptiesTheInputBuffer : Obligations.IclrEmptiesTheInputBuffer :=
  ⟨by decide, fun s hs => exec_of_effect_ok (i := .iclr) hs (iclrEffect_eq s)⟩

theorem encode_iput (b : BitVec 8) : encode (.iput b) = 0x03000000 ||| b.setWidth 32 := packWord_byte_eq_or 0x03 b

/-- Settles O27: the buffer has room for the byte, or the command faults, and `ECMD` is its word. -/
theorem iputAppendsOneByte : Obligations.IputAppendsOneByte := by
  refine fun b s => ⟨encode_iput b, fun hs hroom => ?_, fun hs hfull => ?_⟩
  · exact exec_of_effect_ok (i := .iput b) hs (iputEffect_ok_iff.mpr ⟨hroom, rfl⟩)
  · rw [exec_of_effect_raise0 (i := .iput b) hs (iputEffect_error_iff.mpr ⟨hfull, rfl⟩), encode_iput]; rfl

theorem encode_xfer (k : BitVec 16) : encode (.xfer k) = 0x04000000 ||| k.setWidth 32 := packWord_eq_or 0x04 k

/-- Settles O28: the tail from byte `k` is the output buffer with `k` bytes dropped; with fewer bytes there the command
faults, and `ECMD` is its word. -/
theorem xferMovesTheOutputTail : Obligations.XferMovesTheOutputTail := by
  refine fun k s => ⟨encode_xfer k, fun hs hinside => ?_, fun hs hbeyond => ?_⟩
  · have hexec := exec_of_effect_ok (i := .xfer k) hs (xferEffect_ok_iff.mpr ⟨hinside, rfl⟩)
    exact ⟨_, hexec, rfl, List.length_drop, fun _ => List.getElem?_drop⟩
  · rw [exec_of_effect_raise0 (i := .xfer k) hs (xferEffect_error_iff.mpr ⟨hbeyond, rfl⟩), encode_xfer]; rfl

end Sys2Proof.Machine

/-! SUPPORT. Words taken while a fault is latched or not (R222, R228), and what a command that faults leaves
(R226, R227, R234). -/

namespace Sys2Proof.Machine

/-! ### Illegal words and the latch (R222, R228) -/

/-- Settles O7: the word is no command's, so its effect is the raise. -/
theorem illegalWordRaisesIllegalCommand : Obligations.IllegalWordRaisesIllegalCommand := by
  intro s w rest hm hd hs
  rw [step_push hm, takeWord_none hd]
  exact takeIllegal_unlatched hs

/-- `CLRERR` has one word, and every other word is skipped while a fault is latched. -/
theorem takeWord_latched {w : CmdWord} {s : State} (hs : s.err = true) (hw : w ≠ 0x01000000) :
    takeWord w s = .next s.advance := by
  cases hd : decode w with
  | none => exact (takeWord_none hd s).trans (takeCommand_latched hs)
  | some i =>
    obtain ⟨rfl, _⟩ := encode_of_decode hd
    have hi : i ≠ .clrerr := by rintro rfl; exact hw rfl
    rw [takeWord_some hd, exec_eq_takeCommand hi]
    exact takeCommand_latched hs

/-- Settles O8: from `takeWord_latched`, for the state without the push. -/
theorem latchedWordsOnlyAdvanceCp : Obligations.LatchedWordsOnlyAdvanceCp :=
  fun _ _ _ hm hs hw => (step_push hm).trans (takeWord_latched hs hw)

/-! ### Fault entry and the same command again (R226, R227, R234) -/

section
variable {i : Instr} {s s' t : State} {e : Raise} {p : Part}

/-- A command that leaves `ERR` set has entered a fault that its effect raised. -/
theorem exec_faulted (hs : s.err = false) (h : exec i s = .next t) (ht : t.err = true) :
    ∃ e, effectOf i s = .error e ∧ t = s.enterFault e (encode i) := by
  rcases exec_unlatched_cases hs h with ⟨u, _, hu, rfl⟩ | hfault
  · simp [hu] at ht
  · exact hfault

/-- No command reads the error registers (R35). -/
theorem errorRegs_not_mem_reads (i : Instr) : .errorRegs ∉ reads i := by
  cases i <;> simp [reads]

theorem Part.same_clearFault (hp : p ≠ .errorRegs) : Part.same s s.clearFault p := by
  cases p <;> simp_all [Part.same]

/-- An effect raises the same from every state that agrees in the columns it reads. -/
theorem effectOf_error_of_same (hparams : s'.params = s.params) (hr : ∀ p ∈ reads i, Part.same s s' p)
    (h : effectOf i s = .error e) : effectOf i s' = .error e := by
  have hagree := effectOf_agreeOn hparams hr
  rw [h] at hagree
  cases h' : effectOf i s' with
  | ok u => rw [h'] at hagree; exact hagree.elim
  | error e' => rw [h'] at hagree; exact congrArg _ (agreeOn_error.mp hagree)

/-- The error registers and `CP`, which fault entry and `CLRERR` write, are read by no command. -/
theorem effectOf_error_again (w : CmdWord) (h : effectOf i s = .error e) :
    effectOf i (s.enterFault e w).clearFault.advance = .error e := by
  rw [clearFault_enterFault]
  refine effectOf_error_of_same (s := s) rfl (fun p hp => ?_) h
  have hne : p ≠ .errorRegs := by rintro rfl; exact errorRegs_not_mem_reads i hp
  exact Part.same_advance_right.mpr (Part.same_advance_right.mpr (Part.same_clearFault hne))

end

/-- Settles O16: the fault entry is the whole change. -/
theorem faultsArePrecise : Obligations.FaultsArePrecise := by
  intro i s t hs h ht
  obtain ⟨e, _, rfl⟩ := exec_faulted hs h ht
  exact ⟨faultCode e.kind, e.pos, rfl⟩

/-- Settles O19: the effect raises the same again, two words later. -/
theorem faultsAreNotRetriable : Obligations.FaultsAreNotRetriable := by
  intro i s t u hs h ht hclear
  obtain ⟨e, he, rfl⟩ := exec_faulted hs h ht
  cases hclear
  have hagain := effectOf_error_again (encode i) he
  refine ⟨_, (exec_unlatched i rfl).trans (takeCommand_error rfl hagain), rfl, rfl, rfl, rfl, ?_⟩
  simp [BitVec.add_assoc]

end Sys2Proof.Machine

/-! SUPPORT. The codes each command can raise (R220). -/

namespace Sys2Proof.Machine

/-! ### What ENC's loop raises (R141, R146, R181) -/

section
variable {t : ValueType} {a : List Byte} {i off : Nat} {e : Raise}

/-- A tail's offset, or a length or count, that does not fit a word raises `OverflowError` before an element is looked
at (R141, R177, R178). -/
theorem encArg_of_words_too_large (h : ¬ wordsFit t a off) : encArg t a i off = .error ⟨.overflowError, i⟩ := by
  have htoo : ∀ {v : Nat}, ¬ v < 2 ^ 256 → word v i = .error ⟨.overflowError, i⟩ :=
    fun hv => word_error_iff.mpr ⟨Nat.not_lt.mp hv, rfl⟩
  cases t with
  | string | addressArray =>
    rcases not_and_or.mp h with hoff | hlen
    · simp [encArg, encString, encArray, htoo hoff]
    · by_cases hoff : off < 2 ^ 256
      · simp [encArg, encString, encArray, word_of_lt hoff, htoo hlen]
      · simp [encArg, encString, encArray, htoo hoff]
  | _ => exact absurd trivial h

/-- `OverflowError` is a `uint256`'s fault too, so every argument raises some type's fault. -/
theorem kind_of_encArg_error (h : encArg t a i off = .error e) : ∃ t', e.kind = argFault t' := by
  by_cases hfit : wordsFit t a off
  · rw [encArg_eq hfit] at h
    split at h
    · cases h
    · cases h; exact ⟨t, rfl⟩
  · rw [encArg_of_words_too_large hfit] at h
    cases h
    exact ⟨.uint256, rfl⟩

theorem kind_of_encArgs_error {ts : List Byte} {as : List (List Byte)} (h : encArgs i off ts as = .error e) :
    ∃ t, e.kind = argFault t := by
  induction ts generalizing i off as with
  | nil => simp [encArgs] at h
  | cons t ts ih =>
    cases as with
    | nil => simp [encArgs] at h
    | cons a as =>
      rw [encArgs] at h
      split at h
      · rename_i hr; cases h; exact kind_of_encArg_error hr
      · split at h
        · rename_i hr; cases h; exact ih hr
        · cases h

theorem faultCode_argFault_mem (t : ValueType) : faultCode (argFault t) ∈ [2, 3, 4, 5, 12] := by
  cases t <;> simp [argFault, faultCode]

theorem faultCode_of_encPayload_error {s : State} (h : encPayload s = .error e) :
    faultCode e.kind ∈ [1, 2, 3, 4, 5, 11, 12] := by
  unfold encPayload at h
  split at h
  · cases h; decide
  · split at h
    · cases h; decide
    · split at h
      · rename_i hloop
        cases h
        obtain ⟨t, ht⟩ := kind_of_encArgs_error hloop
        have hsub : [2, 3, 4, 5, 12] ⊆ ([1, 2, 3, 4, 5, 11, 12] : List (BitVec 4)) := by decide
        exact hsub (ht ▸ faultCode_argFault_mem t)
      · cases h

theorem faultCode_of_encInto_error {render : List Byte → List Byte} {s : State} (h : encInto render s = .error e) :
    faultCode e.kind ∈ [1, 2, 3, 4, 5, 9, 11, 12] := by
  rcases encInto_error_iff.mp h with h | ⟨_, _, _, rfl⟩
  · have hsub : [1, 2, 3, 4, 5, 11, 12] ⊆ ([1, 2, 3, 4, 5, 9, 11, 12] : List (BitVec 4)) := by decide
    exact hsub (faultCode_of_encPayload_error h)
  · decide

end

/-! ### What DEC's loop raises (R202) -/

section
variable {par : Params} {p : List Byte} {e : Raise}

theorem raise_of_decOutput_error {j : Nat} {tag : Byte} (h : decOutput par p j tag = .error e) :
    e = outputRaise p j (typeOfTag tag) := by
  cases hread : outputReadable par p j (typeOfTag tag) with
  | true => rw [decOutput_of_readable hread] at h; cases h
  | false => rw [decOutput_of_unreadable hread] at h; cases h; rfl

theorem raise_of_decOutputs_error {j : Nat} {tags : List Byte} (h : decOutputs par p j tags = .error e) :
    ∃ k t, e = outputRaise p k t := by
  induction tags generalizing j with
  | nil => cases h
  | cons tag tags ih =>
    unfold decOutputs at h
    split at h
    · rename_i hr; cases h; exact ⟨_, _, raise_of_decOutput_error hr⟩
    · split at h
      · rename_i hr; cases h; exact ih hr
      · cases h

theorem faultCode_of_decPayload_error {s : State} (h : decPayload p s = .error e) :
    faultCode e.kind ∈ [5, 6, 9] := by
  obtain ⟨k, t, rfl⟩ := raise_of_decOutputs_error (decPayload_error_iff.mp h).2
  rw [faultCode_outputRaise]
  split
  · decide
  · split <;> decide

end

/-! ### The fault table (R220) -/

/-- A command that never faults once decoded has no raise. -/
theorem effectOf_ne_error_of_fault_free {i : Instr} {s : State} {e : Raise}
    (hi : i ∈ [.nop, .clrerr, .iclr, .pclr, .perm, .abs, .hash, .hashX, .sel, .selX, .dclr, .aclr]
      ∨ ∃ r, i = .prnd r ∧ r.toNat ≤ 23) : effectOf i s ≠ .error e := by
  obtain ⟨u, hu⟩ := effectOf_ok_of_fault_free s hi
  simp [hu]

/-- The cases are the rows of R220: the commands that never fault, those with one fault, and the codec. -/
theorem faultCode_of_effectOf_error {i : Instr} {s : State} {e : Raise} (hw : wellFormed i = true)
    (h : effectOf i s = .error e) : faultCode e.kind ∈ raisedCodes i := by
  cases i
  case nop | clrerr | iclr | pclr | perm | abs | hash | hashX | sel | selX | dclr | aclr =>
    exact absurd h (effectOf_ne_error_of_fault_free (.inl (by decide)))
  case prnd r => exact absurd h (effectOf_ne_error_of_fault_free (.inr ⟨r, rfl, of_decide_eq_true hw⟩))
  case iput => obtain ⟨_, rfl⟩ := iputEffect_error_iff.mp h; exact List.mem_singleton.mpr rfl
  case xfer => obtain ⟨_, rfl⟩ := xferEffect_error_iff.mp h; exact List.mem_singleton.mpr rfl
  case sqz => obtain ⟨_, rfl⟩ := sqzEffect_error_iff.mp h; exact List.mem_singleton.mpr rfl
  case tin => obtain ⟨_, rfl⟩ := tinEffect_error_iff.mp h; exact List.mem_singleton.mpr rfl
  case tout => obtain ⟨_, rfl⟩ := toutEffect_error_iff.mp h; exact List.mem_singleton.mpr rfl
  case apush => obtain ⟨_, rfl⟩ := apushEffect_error_iff.mp h; exact List.mem_singleton.mpr rfl
  case rget => obtain ⟨_, rfl⟩ := rgetEffect_error_iff.mp h; exact List.mem_singleton.mpr rfl
  case enc | encX => exact faultCode_of_encInto_error h
  case dec => exact faultCode_of_decPayload_error h
  case decX =>
    rcases decXEffect_error_iff.mp h with ⟨_, rfl⟩ | ⟨_, _, h⟩
    · decide
    · exact List.mem_append_left [12] (faultCode_of_decPayload_error h)

/-- Settles O17: the raise is tabulated, and a raise without a position has position 0. -/
theorem faultCodesAreTheTabulated : Obligations.FaultCodesAreTheTabulated := by
  intro i s t hw hs h ht
  obtain ⟨e, he, rfl⟩ := exec_faulted hs h ht
  obtain ⟨_, hpos⟩ := ofCommand_of_effectOf_error hw he
  exact ⟨faultCode_of_effectOf_error hw he, fun hcode => congrArg eposOf (hpos (faultCode_positionless hcode))⟩

end Sys2Proof.Machine
